-- ==== Sys2Proof/Word.lean ====
section
/-! DEFINITION. The two basic data types of AEV2: the 16-bit word (spec/00_scope.md R6) and the line of text
(spec/30_encoding.md R60, R61: the core fetches and decodes text). -/

namespace Sys2Proof

/-- A 16-bit value: the accumulator, or one data-memory cell (R6, R21, R33). -/
abbrev Word := BitVec 16

/-- A string, as the list of its characters: a compiled line, a mnemonic, an operand token or source text
(R60; notes/assumptions/1.md). -/
abbrev Line := List Char

end Sys2Proof
end

