-- ==== Sys2Proof/Config.lean ====
section
/-! DEFINITION. The parameters that spec/00_scope.md R7 leaves to the implementation. An OPEN parameter is a constant
without a body, so that nothing in Lean can evaluate it and a claim about it holds whatever its value is. -/

namespace Sys2Proof

/-- The largest number of data-memory cells an engine may have (R40: 1 <= MEM_SIZE <= 65536). -/
def Config.maxCells : Nat := 65536

/-- One less than the MEM_SIZE chosen at construction: OPEN (R7, D3; notes/assumptions/4.md). -/
opaque Config.memSizePred : Fin 65536

/-- MEM_SIZE at construction: any number from 1 to 65536 (R7, R40). -/
def Config.memSize : Nat := Config.memSizePred.val + 1

/-- MEM_INIT, the contents of every data cell at reset: OPEN (R7, D4; notes/assumptions/4.md). -/
opaque Config.memInit : Nat → Word

/-- EXPAND_INIT, the contents of the cells a host expansion adds: OPEN (R7, D34; notes/assumptions/5.md). -/
opaque Config.expandInit : Nat → Word

/-- The numbering behind DISPLAY_OPCODE: OPEN (R7, R73, D29; notes/assumptions/6.md). A mnemonic's display opcode is the
image of its index. Every injective map from the 23 mnemonics to the naturals is such a numbering, restricted. -/
opaque Config.opcodeNumbering : Equiv.Perm Nat

/-- RUN_MAX_STEPS_DEFAULT: OPEN (R7, D33; notes/assumptions/7.md). -/
opaque Config.runMaxStepsDefault : Nat

/-- EXT_JUMPS as a core is constructed: `false`, the decided default (R7, D24). State holds the parameter, so that every
claim about all states covers both variants (notes/assumptions/8.md). -/
def Config.extJumps : Bool := false

end Sys2Proof
end

