-- ==== Sys2Proof/Syntax.lean ====
section
/-! DEFINITION. The instructions as terms: the 23 declared mnemonics, the operand forms, and one constructor of `Instr`
for each row of spec/opcode_table.json (spec/30_encoding.md R63, R66, R68). -/

namespace Sys2Proof

/-- The 23 declared mnemonics, in the order of R68. -/
inductive Mnemonic where
  | add | sub | mul | div | and | or | xor | not | lda | sta | ldi | cmp
  | jmp | jz | jnz | jc | jnc | jv | jnv | jn | jnn | halt | nop
deriving DecidableEq, Repr

/-- What `parse_operand` makes of one operand token (R63, R65). The token that it rejects is kept as `malformed`, since
the error belongs to the execute phase (R60, R106). -/
inductive Operand where
  /-- A literal integer; whether it fits i64 is checked at execute (R108). -/
  | immediate (i : Int)
  /-- A data-memory address; whether it is valid is checked at the memory port (R53). -/
  | direct (a : Int)
  /-- A token that is neither, and that named no label when the program was assembled. -/
  | unresolved (name : Line)
  /-- A token on which `parse_operand` raises SyntaxError. -/
  | malformed (token : Line)
deriving DecidableEq, Repr

/-- The operand class of a mnemonic: it fixes the operand count and the modes accepted (R66). -/
inductive OperandClass where
  | d | i | j | n
deriving DecidableEq, Repr

/-- One decoded compiled line with a declared mnemonic: the mnemonic with ALL the operands the line has, of whatever
number and form, because a wrong count or form is an error of the execute phase (R67, R106, R108). -/
inductive Instr where
  | add  (ops : List Operand)
  | sub  (ops : List Operand)
  | mul  (ops : List Operand)
  | div  (ops : List Operand)
  | and  (ops : List Operand)
  | or   (ops : List Operand)
  | xor  (ops : List Operand)
  | not  (ops : List Operand)
  | lda  (ops : List Operand)
  | sta  (ops : List Operand)
  | ldi  (ops : List Operand)
  | cmp  (ops : List Operand)
  | jmp  (ops : List Operand)
  | jz   (ops : List Operand)
  | jnz  (ops : List Operand)
  | jc   (ops : List Operand)
  | jnc  (ops : List Operand)
  | jv   (ops : List Operand)
  | jnv  (ops : List Operand)
  | jn   (ops : List Operand)
  | jnn  (ops : List Operand)
  | halt (ops : List Operand)
  | nop  (ops : List Operand)
deriving DecidableEq, Repr

/-- The mnemonic an instruction was decoded from. -/
def Instr.mnemonic : Instr → Mnemonic
  | .add _ => .add | .sub _ => .sub | .mul _ => .mul | .div _ => .div
  | .and _ => .and | .or _ => .or | .xor _ => .xor | .not _ => .not
  | .lda _ => .lda | .sta _ => .sta | .ldi _ => .ldi | .cmp _ => .cmp
  | .jmp _ => .jmp | .jz _ => .jz | .jnz _ => .jnz | .jc _ => .jc | .jnc _ => .jnc
  | .jv _ => .jv | .jnv _ => .jnv | .jn _ => .jn | .jnn _ => .jnn
  | .halt _ => .halt | .nop _ => .nop

/-- The operands of an instruction, in the order of the line. -/
def Instr.operands : Instr → List Operand
  | .add ops => ops | .sub ops => ops | .mul ops => ops | .div ops => ops
  | .and ops => ops | .or ops => ops | .xor ops => ops | .not ops => ops
  | .lda ops => ops | .sta ops => ops | .ldi ops => ops | .cmp ops => ops
  | .jmp ops => ops | .jz ops => ops | .jnz ops => ops | .jc ops => ops | .jnc ops => ops
  | .jv ops => ops | .jnv ops => ops | .jn ops => ops | .jnn ops => ops
  | .halt ops => ops | .nop ops => ops

/-- The instruction of a mnemonic with given operands. -/
def Mnemonic.instr : Mnemonic → List Operand → Instr
  | .add, ops => .add ops | .sub, ops => .sub ops | .mul, ops => .mul ops | .div, ops => .div ops
  | .and, ops => .and ops | .or, ops => .or ops | .xor, ops => .xor ops | .not, ops => .not ops
  | .lda, ops => .lda ops | .sta, ops => .sta ops | .ldi, ops => .ldi ops | .cmp, ops => .cmp ops
  | .jmp, ops => .jmp ops | .jz, ops => .jz ops | .jnz, ops => .jnz ops | .jc, ops => .jc ops
  | .jnc, ops => .jnc ops | .jv, ops => .jv ops | .jnv, ops => .jnv ops | .jn, ops => .jn ops
  | .jnn, ops => .jnn ops | .halt, ops => .halt ops | .nop, ops => .nop ops

end Sys2Proof
end

