-- ==== Sys2Proof/WellFormed.lean ====
section
/-! DEFINITION. Which instructions have operands of the number and form their class asks for (spec/30_encoding.md R66,
R67), with Immediates inside the i64 range (R63). An ill-formed instruction still runs: it makes the error halt that
spec/40_cycle.md R108 names. -/

namespace Sys2Proof

/-- The i64 range, -2^63 to 2^63 - 1 (R63). -/
def inI64 (i : Int) : Bool :=
  decide (-9223372036854775808 ≤ i) && decide (i ≤ 9223372036854775807)

/-- Class D: one Direct operand. -/
def directForm : List Operand → Bool
  | [.direct _] => true
  | _ => false

/-- Class I: one Immediate operand inside i64. -/
def immediateForm : List Operand → Bool
  | [.immediate i] => inI64 i
  | _ => false

/-- Class J: one operand, an Immediate inside i64 or a Direct. -/
def targetForm : List Operand → Bool
  | [.immediate i] => inI64 i
  | [.direct _] => true
  | _ => false

/-- Class N: no operand. -/
def emptyForm : List Operand → Bool
  | [] => true
  | _ => false

/-- The instruction has the operand its class asks for (R66). -/
def Instr.wf : Instr → Bool
  | .add ops => directForm ops | .sub ops => directForm ops | .mul ops => directForm ops
  | .div ops => directForm ops | .and ops => directForm ops | .or ops => directForm ops
  | .xor ops => directForm ops | .lda ops => directForm ops | .sta ops => directForm ops
  | .cmp ops => directForm ops
  | .ldi ops => immediateForm ops
  | .jmp ops => targetForm ops | .jz ops => targetForm ops | .jnz ops => targetForm ops
  | .jc ops => targetForm ops | .jnc ops => targetForm ops | .jv ops => targetForm ops
  | .jnv ops => targetForm ops | .jn ops => targetForm ops | .jnn ops => targetForm ops
  | .not ops => emptyForm ops | .halt ops => emptyForm ops | .nop ops => emptyForm ops

end Sys2Proof
end

