-- ==== Sys2Proof/Decode.lean ====
section
/-! DEFINITION. From text to instructions and back (spec/30_encoding.md sections 1 to 4): the total decoder of compiled
lines, their encoder, the 16-bit and 32-bit display encoding with its own decoder, and the mnemonic lookup. -/

namespace Sys2Proof

/-! ## Numbers -/

/-- `mask16(v) = v mod 2^16`, with the remainder in 0..0xFFFF for negative `v` too (R9). -/
def mask16 (v : Int) : Word := BitVec.ofInt 16 v

/-! ## Characters and pieces of text -/

/-- A whitespace character: space or tab (R62; notes/assumptions/2.md). -/
def isSpace (c : Char) : Bool := c == ' ' || c == '\t'

/-- `trim(s)`: without leading and trailing whitespace (R10). -/
def trim (s : Line) : Line := ((s.dropWhile isSpace).reverse.dropWhile isSpace).reverse

/-- The ASCII upper-case form of a character (R10). -/
def upperChar (c : Char) : Char :=
  if 97 ≤ c.toNat ∧ c.toNat ≤ 122 then Char.ofNat (c.toNat - 32) else c

/-- `upper(s)` (R10). -/
def upper (s : Line) : Line := s.map upperChar

/-- The pieces of `s` between the separators `sep`, empty pieces included: n separators give n + 1 pieces (R62). -/
def splitAtChar (sep : Char) : Line → List Line
  | [] => [[]]
  | c :: cs =>
    match splitAtChar sep cs with
    | [] => [[c]]
    | piece :: rest => if c = sep then [] :: piece :: rest else (c :: piece) :: rest

/-- The operand tokens in the text after the mnemonic: none if it is empty, else its comma-separated pieces, trimmed
(R62). -/
def splitOperands (rest : Line) : List Line :=
  if rest = [] then [] else (splitAtChar ',' rest).map trim

/-- `s` at its first whitespace character: what stands before it, and what is left from there, trimmed (R62, R81). -/
def splitWord (s : Line) : Line × Line :=
  (s.takeWhile (fun c => !isSpace c), trim (s.dropWhile (fun c => !isSpace c)))

/-- `split(line)`: the upper-cased mnemonic and the operand tokens; total on every string (R62). -/
def split (line : Line) : Line × List Line :=
  let (word, rest) := splitWord (trim line)
  (upper word, splitOperands rest)

/-! ## parse_number and parse_operand -/

/-- The value of a decimal digit. -/
def decDigit (c : Char) : Option Nat :=
  if 48 ≤ c.toNat ∧ c.toNat ≤ 57 then some (c.toNat - 48) else none

/-- The value of a hexadecimal digit, in either case. -/
def hexDigit (c : Char) : Option Nat :=
  if 48 ≤ c.toNat ∧ c.toNat ≤ 57 then some (c.toNat - 48)
  else if 97 ≤ c.toNat ∧ c.toNat ≤ 102 then some (c.toNat - 87)
  else if 65 ≤ c.toNat ∧ c.toNat ≤ 70 then some (c.toNat - 55)
  else none

/-- The value of a binary digit. -/
def binDigit (c : Char) : Option Nat :=
  if c.toNat = 48 then some 0 else if c.toNat = 49 then some 1 else none

/-- The digits of `cs` appended, in the given base, to the value read so far; `none` at a character that is no digit. -/
def digitsFrom (base : Nat) (digit : Char → Option Nat) : Nat → Line → Option Nat
  | value, [] => some value
  | value, c :: cs =>
    match digit c with
    | none => none
    | some d => digitsFrom base digit (value * base + d) cs

/-- A number of at least one digit. -/
def digitsValue (base : Nat) (digit : Char → Option Nat) (cs : Line) : Option Nat :=
  if cs = [] then none else digitsFrom base digit 0 cs

/-- What follows a `0x` or `0X` at the start of `s`, if it starts so. -/
def afterHexMark : Line → Option Line
  | c :: x :: rest => if c = '0' ∧ (x = 'x' ∨ x = 'X') then some rest else none
  | _ => none

/-- What follows a `0b` or `0B` at the start of `s`, if it starts so. -/
def afterBinMark : Line → Option Line
  | c :: x :: rest => if c = '0' ∧ (x = 'b' ∨ x = 'B') then some rest else none
  | _ => none

/-- The three radixes of `parse_number`, after the sign (R64). -/
def parseUnsigned (s : Line) : Option Nat :=
  match afterHexMark s with
  | some rest => digitsValue 16 hexDigit rest
  | none =>
    match afterBinMark s with
    | some rest => digitsValue 2 binDigit rest
    | none => digitsValue 10 decDigit s

/-- `s` without a leading `-`, and whether it had one. -/
def takeSign : Line → Bool × Line
  | [] => (false, [])
  | c :: cs => if c = '-' then (true, cs) else (false, c :: cs)

/-- `sign * v`. -/
def applySign (negative : Bool) (v : Nat) : Int := if negative then -(v : Int) else (v : Int)

/-- `parse_number(t)`; `none` is its SyntaxError (R64). -/
def parseNumber (t : Line) : Option Int :=
  let (negative, s) := takeSign (trim t)
  (parseUnsigned s).map (applySign negative)

/-- The value of a token of the form `-?[0-9]+`, as a whole (R65, step 3). -/
def parseConstant (s : Line) : Option Int :=
  let (negative, digits) := takeSign s
  (digitsValue 10 decDigit digits).map (applySign negative)

/-- The text between the brackets of a token that starts with `[` and ends with `]` (R65, step 1). -/
def bracketed (s : Line) : Option Line :=
  if 2 ≤ s.length ∧ s.head? = some '[' ∧ s.getLast? = some ']' then some s.tail.dropLast else none

/-- A Direct operand from the number written in it; a malformed number makes the token malformed. -/
def directOperand (token number : Line) : Operand :=
  match parseNumber number with
  | some a => .direct a
  | none => .malformed token

/-- `parse_operand(t)`, in its priority order (R65). -/
def parseOperand (t : Line) : Operand :=
  let s := trim t
  if s = [] then .malformed t
  else
    match bracketed s with
    | some inner => directOperand t inner
    | none =>
      if (afterHexMark s).isSome then directOperand t s
      else
        match parseConstant s with
        | some i => .immediate i
        | none => .unresolved s

/-! ## Mnemonics -/

/-- The declared mnemonics, in the order of R68. -/
def Mnemonic.all : List Mnemonic :=
  [.add, .sub, .mul, .div, .and, .or, .xor, .not, .lda, .sta, .ldi, .cmp,
   .jmp, .jz, .jnz, .jc, .jnc, .jv, .jnv, .jn, .jnn, .halt, .nop]

/-- The mnemonic as it stands in a compiled line (R68). -/
def Mnemonic.name : Mnemonic → Line
  | .add => ['A', 'D', 'D']
  | .sub => ['S', 'U', 'B']
  | .mul => ['M', 'U', 'L']
  | .div => ['D', 'I', 'V']
  | .and => ['A', 'N', 'D']
  | .or => ['O', 'R']
  | .xor => ['X', 'O', 'R']
  | .not => ['N', 'O', 'T']
  | .lda => ['L', 'D', 'A']
  | .sta => ['S', 'T', 'A']
  | .ldi => ['L', 'D', 'I']
  | .cmp => ['C', 'M', 'P']
  | .jmp => ['J', 'M', 'P']
  | .jz => ['J', 'Z']
  | .jnz => ['J', 'N', 'Z']
  | .jc => ['J', 'C']
  | .jnc => ['J', 'N', 'C']
  | .jv => ['J', 'V']
  | .jnv => ['J', 'N', 'V']
  | .jn => ['J', 'N']
  | .jnn => ['J', 'N', 'N']
  | .halt => ['H', 'A', 'L', 'T']
  | .nop => ['N', 'O', 'P']

/-- The declared mnemonic a string names, if it names one; the lookup is of the exact upper-case name (R68, R69). -/
def Mnemonic.ofName (s : Line) : Option Mnemonic := Mnemonic.all.find? (fun m => m.name == s)

/-- The operand class of each mnemonic (R66). -/
def Mnemonic.operandClass : Mnemonic → OperandClass
  | .add | .sub | .mul | .div | .and | .or | .xor | .lda | .sta | .cmp => .d
  | .ldi => .i
  | .jmp | .jz | .jnz | .jc | .jnc | .jv | .jnv | .jn | .jnn => .j
  | .not | .halt | .nop => .n

/-- Whether the execute phase of the mnemonic is implemented: JV, JNV, JN and JNN only under EXT_JUMPS (R2, R70, R106). -/
def Mnemonic.implemented (extJumps : Bool) : Mnemonic → Bool
  | .jv | .jnv | .jn | .jnn => extJumps
  | _ => true

/-- The place of a mnemonic in `Mnemonic.all`. -/
def Mnemonic.index : Mnemonic → Nat
  | .add => 0 | .sub => 1 | .mul => 2 | .div => 3 | .and => 4 | .or => 5 | .xor => 6 | .not => 7
  | .lda => 8 | .sta => 9 | .ldi => 10 | .cmp => 11 | .jmp => 12 | .jz => 13 | .jnz => 14 | .jc => 15
  | .jnc => 16 | .jv => 17 | .jnv => 18 | .jn => 19 | .jnn => 20 | .halt => 21 | .nop => 22

/-- DISPLAY_OPCODE: an injective map whose values nothing fixes (R7, R73; notes/assumptions/6.md). -/
def displayOpcode (m : Mnemonic) : Nat := Config.opcodeNumbering m.index

/-! ## The decoder of compiled lines -/

/-- Why a line is no instruction. There is one reason: every other error is one of the instruction's execute phase. -/
inductive DecodeReject where
  /-- The upper-cased first word is not one of the 23 declared mnemonics (R69). -/
  | unknownMnemonic (mnem : Line)
deriving DecidableEq, Repr

/-- The instruction of a mnemonic string and its operand tokens: what the phase `Decoded(mnem, ops)` stands for (R60). -/
def instrOfTokens (mnem : Line) (ops : List Line) : Except DecodeReject Instr :=
  match Mnemonic.ofName mnem with
  | some m => .ok (m.instr (ops.map parseOperand))
  | none => .error (.unknownMnemonic mnem)

/-- The decoder of compiled lines: total on every string, rejecting by name (R60, R62, R69). -/
def decode (line : Line) : Except DecodeReject Instr :=
  let (mnem, ops) := split line
  instrOfTokens mnem ops

/-! ## The encoder of compiled lines -/

/-- The character of a decimal digit. -/
def digitChar (d : Nat) : Char := Char.ofNat (48 + d)

/-- The decimal digits of `n` put before `tail`; `fuel` bounds their number. -/
def renderDigits : Nat → Nat → Line → Line
  | 0, _, tail => tail
  | fuel + 1, n, tail =>
    if n < 10 then digitChar n :: tail
    else renderDigits fuel (n / 10) (digitChar (n % 10) :: tail)

/-- The decimal string of a natural number (R84). -/
def renderNat (n : Nat) : Line := renderDigits (n + 1) n []

/-- The decimal string of an integer. -/
def renderInt (i : Int) : Line := if i < 0 then '-' :: renderNat i.natAbs else renderNat i.natAbs

/-- The token of an operand: `[a]` for a Direct, the decimal string for an Immediate (R65). -/
def Operand.token : Operand → Line
  | .direct a => '[' :: (renderInt a ++ [']'])
  | .immediate i => renderInt i
  | .unresolved name => name
  | .malformed token => token

/-- The operand tokens joined with `, ` (R61, R84). -/
def joinTokens : List Line → Line
  | [] => []
  | [t] => t
  | t :: u :: rest => t ++ [',', ' '] ++ joinTokens (u :: rest)

/-- The normalized compiled line of an upper-case mnemonic and its operand tokens (R61, R84). -/
def compiledLine (mnem : Line) (ops : List Line) : Line :=
  if ops = [] then mnem else mnem ++ [' '] ++ joinTokens ops

/-- The compiled line of an instruction. -/
def encode (i : Instr) : Line := compiledLine i.mnemonic.name (i.operands.map Operand.token)

/-! ## The display encoding (R72 to R78): no rule of the core reads it -/

/-- What the display encoder and decoder take as an operand (R75, R76). -/
inductive DisplayOperand where
  | none
  | direct (a : Int)
  | immediate (i : Int)
deriving DecidableEq, Repr

/-- A display word of either width (R72, R74). -/
inductive DisplayWord where
  | w16 (w : BitVec 16)
  | w32 (w : BitVec 32)
deriving DecidableEq, Repr

/-- The one error of the display encoder, which the core never raises (R75, R196). -/
inductive DisplayError where
  | encodingRangeError
deriving DecidableEq, Repr

/-- bits[15:12] = opcode, bits[11:0] = operand (R72). -/
def displayWord16 (opcode field : Nat) : BitVec 16 := BitVec.ofNat 4 opcode ++ BitVec.ofNat 12 field

/-- bits[31:16] = immediate, bits[15:12] = opcode, bits[11:0] = 0 (R74). -/
def displayWord32 (imm : Word) (opcode : Nat) : BitVec 32 := (imm ++ BitVec.ofNat 4 opcode) ++ 0#12

/-- The display encoder, for a given DISPLAY_OPCODE (R75). -/
def displayEncode (opcodeOf : Mnemonic → Nat) (m : Mnemonic) (o : DisplayOperand) :
    Except DisplayError DisplayWord :=
  if 15 < opcodeOf m then .error .encodingRangeError
  else
    match o with
    | .none => .ok (.w16 (displayWord16 (opcodeOf m) 0))
    | .direct a =>
      if a < 0 ∨ 4095 < a then .error .encodingRangeError
      else .ok (.w16 (displayWord16 (opcodeOf m) a.toNat))
    | .immediate i =>
      if 0 ≤ i ∧ i ≤ 4095 then .ok (.w16 (displayWord16 (opcodeOf m) i.toNat))
      else .ok (.w32 (displayWord32 (mask16 i) (opcodeOf m)))

/-- The declared mnemonic with a given display opcode, if there is one (R76). -/
def mnemonicOfOpcode (opcodeOf : Mnemonic → Nat) (op : Nat) : Option Mnemonic :=
  Mnemonic.all.find? (fun m => opcodeOf m == op)

/-- The display decoder of a 16-bit word: a field that is not zero is read as Direct (R76). -/
def displayDecode16 (opcodeOf : Mnemonic → Nat) (w : BitVec 16) : Option (Mnemonic × DisplayOperand) :=
  let field := (w.extractLsb' 0 12).toNat
  (mnemonicOfOpcode opcodeOf (w.extractLsb' 12 4).toNat).map fun m =>
    (m, if field = 0 then .immediate 0 else .direct (field : Int))

/-- The display decoder of a 32-bit word (R76). -/
def displayDecode32 (opcodeOf : Mnemonic → Nat) (w : BitVec 32) : Option (Mnemonic × DisplayOperand) :=
  if w.extractLsb' 0 12 = 0#12 then
    (mnemonicOfOpcode opcodeOf (w.extractLsb' 12 4).toNat).map fun m =>
      (m, .immediate ((w.extractLsb' 16 16).toNat : Int))
  else none

/-- The display decoder with the width given beside the word (R76). -/
def displayDecode (opcodeOf : Mnemonic → Nat) : DisplayWord → Option (Mnemonic × DisplayOperand)
  | .w16 w => displayDecode16 opcodeOf w
  | .w32 w => displayDecode32 opcodeOf w

/-- The instruction a decoded display word stands for. A mnemonic without an operand is encoded with a zero field (R75),
so an Immediate 0 beside it is read as no operand (notes/assumptions/13.md). -/
def instrOfDisplay (m : Mnemonic) (o : DisplayOperand) : Instr :=
  match m.operandClass, o with
  | _, .none => m.instr []
  | .n, .immediate i => if i = 0 then m.instr [] else m.instr [.immediate i]
  | _, .immediate i => m.instr [.immediate i]
  | _, .direct a => m.instr [.direct a]

/-- The instruction read from a display word whose bits are `w`, as spec/opcode_table.json numbers them: its rows give the
display encoding, 16 bits or 32 bits wide (R72, R74, R76; notes/assumptions/13.md). -/
def decodeTableWord (nbits w : Nat) : Option Instr :=
  if nbits = 16 then
    (displayDecode16 displayOpcode (BitVec.ofNat 16 w)).map fun p => instrOfDisplay p.1 p.2
  else if nbits = 32 then
    (displayDecode32 displayOpcode (BitVec.ofNat 32 w)).map fun p => instrOfDisplay p.1 p.2
  else none

/-! ## get_instruction_info (R79) -/

/-- The addressing modes (R6, R63). -/
inductive AddressingMode where
  | immediate | direct
deriving DecidableEq, Repr

/-- The roles of an operand (R66, R79; notes/assumptions/14.md). -/
inductive OperandRole where
  | memoryAddress | immediateValue | jumpTarget
deriving DecidableEq, Repr

/-- The modes a class accepts (R66). -/
def OperandClass.modes : OperandClass → List AddressingMode
  | .d => [.direct]
  | .i => [.immediate]
  | .j => [.immediate, .direct]
  | .n => []

/-- The operands of a class, by role; their number is the class's operand count (R66, R67). -/
def OperandClass.roles : OperandClass → List OperandRole
  | .d => [.memoryAddress]
  | .i => [.immediateValue]
  | .j => [.jumpTarget]
  | .n => []

/-- What the lookup returns for a declared mnemonic (R79). -/
structure InstructionInfo where
  opcode : Nat
  roles : List OperandRole
  modes : List AddressingMode
deriving DecidableEq, Repr

/-- `get_instruction_info`: an error payload, not an error, for a string that is no declared mnemonic (R69, R79). -/
def instructionInfo (s : Line) : Except DecodeReject InstructionInfo :=
  match Mnemonic.ofName s with
  | some m => .ok ⟨displayOpcode m, m.operandClass.roles, m.operandClass.modes⟩
  | none => .error (.unknownMnemonic s)

end Sys2Proof
end

