-- ==== Sys2Proof/Machine/Memory.lean ====
section
/-! DEFINITION. The data memory: MEM_SIZE cells of 16 bits, addressed 0 to MEM_SIZE - 1 (spec/10_state.md R33,
spec/20_memory.md R40), as plain data in one canonical form (notes/assumptions/3.md). -/

namespace Sys2Proof.Machine

/-- One listed cell: its index and its value. The smallest thing AEV2 addresses is a 16-bit cell (R40, R44). -/
abbrev MemCell := Nat × Word

/-- The data memory. `size` is MEM_SIZE now: it can grow (R228). The cells whose value is `Memory.filler` are not listed. -/
structure Memory where
  size : Nat
  cells : List MemCell
deriving DecidableEq, Repr

/-- The value that a cell inside the memory has when it is not listed. It only says how contents are written down: any
contents can be written so, and the contents at reset are MEM_INIT (notes/assumptions/3.md, notes/assumptions/4.md). -/
def Memory.filler : Word := 0#16

/-- The value listed for an index, or the filler. -/
def lookupCell : List MemCell → Nat → Word
  | [], _ => Memory.filler
  | (b, w) :: rest, a => if b = a then w else lookupCell rest a

/-- The list with the value of one index replaced; a filler value is dropped from the list. -/
def putCell : List MemCell → Nat → Word → List MemCell
  | [], a, v => if v = Memory.filler then [] else [(a, v)]
  | (b, w) :: rest, a, v =>
    if a < b then (if v = Memory.filler then (b, w) :: rest else (a, v) :: (b, w) :: rest)
    else if a = b then (if v = Memory.filler then rest else (a, v) :: rest)
    else (b, w) :: putCell rest a v

/-- The listed cells of `count` cells from `start` on whose contents are `f`. -/
def fillCells (f : Nat → Word) : Nat → Nat → List MemCell
  | _, 0 => []
  | start, count + 1 =>
    if f start = Memory.filler then fillCells f (start + 1) count
    else (start, f start) :: fillCells f (start + 1) count

/-- Addresses strictly rise from `lo` on, none is `hi` or above, and no listed value is the filler. -/
def cellsOrdered (hi : Nat) : Nat → List MemCell → Bool
  | _, [] => true
  | lo, (a, w) :: rest =>
    decide (lo ≤ a) && decide (a < hi) && !(w == Memory.filler) && cellsOrdered hi (a + 1) rest

/-- The canonical form, and 1 <= MEM_SIZE <= 65536 (R40). -/
def Memory.wf (m : Memory) : Bool :=
  decide (1 ≤ m.size) && decide (m.size ≤ Config.maxCells) && cellsOrdered m.size 0 m.cells

/-- The value of the cell with a given index. -/
def Memory.get (m : Memory) (a : Nat) : Word := lookupCell m.cells a

/-- The memory with one cell replaced. -/
def Memory.set (m : Memory) (a : Nat) (v : Word) : Memory := ⟨m.size, putCell m.cells a v⟩

/-- A memory of `size` cells with given contents (R220). -/
def Memory.ofContents (size : Nat) (contents : Nat → Word) : Memory :=
  ⟨size, fillCells contents 0 size⟩

/-- The memory grown to `newSize` cells, the new ones with given contents (R228). -/
def Memory.expand (m : Memory) (fill : Nat → Word) (newSize : Nat) : Memory :=
  ⟨newSize, m.cells ++ fillCells fill m.size (newSize - m.size)⟩

/-- A copy of all the cells, in the order of their addresses (R226). -/
def Memory.toList (m : Memory) : List Word := (List.range m.size).map m.get

end Sys2Proof.Machine
end

