-- ==== Sys2Proof/Machine/State.lean ====
section
/-! DEFINITION. The state record of AEV2 (spec/10_state.md R20: "Nothing else is state"), as plain data, its values at
reset (R37, R220), and the reasons a step can stop. -/

namespace Sys2Proof.Machine

/-- The four flags (R28). They are not a packed register. -/
structure Flags where
  z : Bool
  c : Bool
  v : Bool
  n : Bool
deriving DecidableEq, Repr

/-- ERR, the cause of an error halt (R32). -/
inductive ErrCode where
  | none
  | syntaxError
  | unknownInstruction
  | modeMismatch
  | outOfBounds
  | divByZero
deriving DecidableEq, Repr

/-- PHASE, the state of the phase machine, with what each phase has staged (R26). -/
inductive Phase where
  | idle
  /-- A line is staged, unparsed. -/
  | fetched (line : Line)
  /-- The upper-cased mnemonic and the operand tokens, not yet classified. -/
  | decoded (mnem : Line) (ops : List Line)
  | halted
deriving DecidableEq, Repr

/-- The phase tag of a history entry (R207). -/
inductive PhaseTag where
  | fetch | decode | execute
deriving DecidableEq, Repr

/-- A register snapshot of the trace (R207). -/
structure RegSnapshot where
  acc : Word
  pc : Nat
  flags : Flags
deriving DecidableEq, Repr

/-- A history entry (R207). `mems` is (memBefore, memAfter), present only in execute entries. -/
structure HistEntry where
  phase : PhaseTag
  line : Line
  before : RegSnapshot
  after : RegSnapshot
  mems : Option (Memory × Memory)
deriving DecidableEq, Repr

/-- The state of the machine (R20). HALTED is not a field of its own: R27 makes it and PHASE one piece of state
(`State.halted`, notes/assumptions/9.md). -/
structure State where
  /-- ACC, the accumulator (R21). -/
  acc : Word
  /-- PC, the index of the next compiled line to fetch: unbounded (R24, R25). -/
  pc : Nat
  /-- PHASE (R26). -/
  phase : Phase
  /-- Z, C, V and N (R28). -/
  flags : Flags
  /-- CYCLES, unbounded (R29). -/
  cycles : Nat
  /-- IR, the display opcode of the staged instruction, or NONE (R30). -/
  ir : Option Nat
  /-- IRASM, the textual form of the instruction register, or NONE (R30). -/
  irasm : Option Line
  /-- ERR (R32). -/
  err : ErrCode
  /-- MEM, with its size (R33). -/
  mem : Memory
  /-- PROG, the instruction store; NPROG is its length (R31). -/
  prog : List Line
  /-- HIST, the execution trace, oldest entry first (R34). -/
  hist : List HistEntry
  /-- The parameter EXT_JUMPS of this core (R7): no step and no host operation changes it (notes/assumptions/8.md). -/
  extJumps : Bool
deriving DecidableEq, Repr

/-- The faults: reasons a step can stop the MODEL. None of them is an error of AEV2, whose five errors are next states
(R106). -/
inductive Fault where
  /-- Raised by `step` in phase Decoded when PC is not below NPROG, so that PROG[PC], the line being executed, does not
  exist. By R38 no reachable state is like this. Safe: the model stops where the spec says nothing
  (notes/assumptions/11.md). -/
  | noCurrentLine
deriving DecidableEq, Repr

/-- The refusals. -/
inductive Refusal where
  /-- Answered by an arm of `exec` whose instruction has no meaning in the model yet, and by nothing else. Safe: the model
  stops where the hardware goes on. No arm answers it now. -/
  | notModelled (mnemonic : String)
deriving DecidableEq, Repr

/-- The three outcomes of a step, for this machine. -/
abbrev Result := Host.Outcome State Fault Refusal

/-- All four flags false (R28). -/
def Flags.clear : Flags := ⟨false, false, false, false⟩

/-- A core just constructed, with given parameters MEM_SIZE, MEM_INIT and EXT_JUMPS (R37, R220). -/
def State.construct (memSize : Nat) (memInit : Nat → Word) (extJumps : Bool) : State where
  acc := 0#16
  pc := 0
  phase := .idle
  flags := Flags.clear
  cycles := 0
  ir := none
  irasm := none
  err := .none
  mem := Memory.ofContents memSize memInit
  prog := []
  hist := []
  extJumps := extJumps

/-- The machine right after reset, its OPEN parameters being what `Config` leaves free (R37, R220). -/
def State.reset : State := State.construct Config.memSize Config.memInit Config.extJumps

end Sys2Proof.Machine
end

