-- ==== Sys2Proof/Machine/Flags.lean ====
section
/-! DEFINITION. The ALU: the raw results and the flag rule (spec/40_cycle.md R110 to R112). Operands are converted to
integers, the raw result is computed exactly, and only what is written to ACC is masked (R111). -/

namespace Sys2Proof.Machine

/-- The tag a caller passes to `update_flags` (R110). -/
inductive FlagOp where
  | add | sub
deriving DecidableEq, Repr

/-- `update_flags(r, op)` (R110). -/
def updateFlags (r : Int) (op : FlagOp) : Flags where
  z := decide (r = 0)
  n := decide (r < 0)
  v := decide (r > 32767) || decide (r < -32768)
  c := (decide (op = .add) && decide (r < 0)) || (decide (op = .sub) && decide (r > 0))

/-- `a + m`, unmasked (R112). -/
def rawSum (a m : Word) : Int := (a.toNat : Int) + (m.toNat : Int)

/-- `a - m`, unmasked (R112). -/
def rawDifference (a m : Word) : Int := (a.toNat : Int) - (m.toNat : Int)

/-- `a * m`, unmasked (R112). -/
def rawProduct (a m : Word) : Int := (a.toNat : Int) * (m.toNat : Int)

/-- `floor(a / m)` of unsigned values, for `m` not zero (R112, R133). -/
def rawQuotient (a m : Word) : Int := ((a.toNat / m.toNat : Nat) : Int)

end Sys2Proof.Machine
end

