-- ==== Sys2Proof/Machine/Operands.lean ====
section
/-! DEFINITION. Operand resolution and the memory port (spec/40_cycle.md R108, R109; spec/20_memory.md R53, R54). Each
check either gives its value or names the error that the execute phase raises. -/

namespace Sys2Proof.Machine

/-- `MemRead(a, 1)` (R54). -/
def Memory.read (m : Memory) (a : Int) : Except ErrCode Word :=
  if 0 ≤ a ∧ a < (m.size : Int) then .ok (m.get a.toNat) else .error .outOfBounds

/-- `MemWrite(a, 1, v)` (R54). -/
def Memory.write (m : Memory) (a : Int) (v : Word) : Except ErrCode Memory :=
  if 0 ≤ a ∧ a < (m.size : Int) then .ok (m.set a.toNat v) else .error .outOfBounds

/-- An operand after resolution: its mode and value (R108). -/
inductive Resolved where
  | immediate (i : Int)
  | direct (a : Int)
deriving DecidableEq, Repr

/-- The steps of `resolve` that do not depend on the class, for the classes with one operand: the count, the token, an
unresolved label, the i64 range, in this order (R108). -/
def resolveOne : List Operand → Except ErrCode Resolved
  | [.direct a] => .ok (.direct a)
  | [.immediate i] => if inI64 i then .ok (.immediate i) else .error .syntaxError
  | [.unresolved _] => .error .syntaxError
  | [.malformed _] => .error .syntaxError
  | _ => .error .syntaxError

/-- `resolve` for class D: the address of a Direct operand (R108). -/
def resolveDirect (ops : List Operand) : Except ErrCode Int :=
  (resolveOne ops).bind fun o =>
    match o with
    | .direct a => .ok a
    | .immediate _ => .error .modeMismatch

/-- `resolve` for class I: the value of an Immediate operand (R108). -/
def resolveImmediate (ops : List Operand) : Except ErrCode Int :=
  (resolveOne ops).bind fun o =>
    match o with
    | .immediate i => .ok i
    | .direct _ => .error .modeMismatch

/-- `resolve` for class N: no operand (R108). -/
def resolveNone : List Operand → Except ErrCode Unit
  | [] => .ok ()
  | _ :: _ => .error .syntaxError

/-- `M(o)`: the cell at the operand's address, for class D (R109). -/
def readOperand (ops : List Operand) (m : Memory) : Except ErrCode Word :=
  (resolveDirect ops).bind fun a => m.read a

/-- `target(o)`: the target of a resolved class-J operand, a Direct one read from its cell (R109). -/
def targetOf (o : Resolved) (m : Memory) : Except ErrCode Int :=
  match o with
  | .immediate i => .ok i
  | .direct a => (m.read a).map fun w => (w.toNat : Int)

/-- The target of a jump from its operands: class J takes either mode (R108, R109). -/
def readTarget (ops : List Operand) (m : Memory) : Except ErrCode Int :=
  (resolveOne ops).bind fun o => targetOf o m

end Sys2Proof.Machine
end

