-- ==== Sys2Proof/Machine/Ops.lean ====
section
/-! DEFINITION. The shared operations of the machine: the writes of single registers, the trace, the error halt, the
epilogue, the frame of every execute phase, and the fetch and decode phases (spec/40_cycle.md R103 to R107,
spec/60_exceptions.md R201, R207, R208). -/

namespace Sys2Proof.Machine

/-! ## Registers -/

/-- HALTED, the halted flag: PHASE seen another way (R27). -/
def State.halted (s : State) : Bool := decide (s.phase = .halted)

/-- `ACC <- v` (R21). -/
def State.setAcc (s : State) (v : Word) : State :=
  { s with acc := v }

/-- All four flags written (R28, R110). -/
def State.setFlags (s : State) (f : Flags) : State :=
  { s with flags := f }

/-- `PC <- t` (R24). -/
def State.setPc (s : State) (t : Nat) : State :=
  { s with pc := t }

/-- The data memory replaced (R33). -/
def State.setMem (s : State) (m : Memory) : State :=
  { s with mem := m }

/-! ## The trace -/

/-- The register snapshot of a state (R207). -/
def State.regs (s : State) : RegSnapshot := ⟨s.acc, s.pc, s.flags⟩

/-- PROG[PC], the line being executed (R106). By R38 it exists in every reachable execute phase; where it does not, the
empty line stands for it here and `step` never runs an execute phase (notes/assumptions/11.md). -/
def State.currentLine (s : State) : Line := (s.prog[s.pc]?).getD []

/-- The entry of a fetch or decode phase: before = after, no memory snapshots (R207, R208). -/
def State.traceEntry (s : State) (tag : PhaseTag) (line : Line) : HistEntry :=
  ⟨tag, line, s.regs, s.regs, none⟩

/-- The entry of an execute phase that led from `s` to `t` (R207, R208). -/
def State.executeEntry (s t : State) : HistEntry :=
  ⟨.execute, s.currentLine, s.regs, t.regs, some (s.mem, t.mem)⟩

/-- The end of an execute phase that began in `s`: its history entry is appended (R106, R107). -/
def State.record (s t : State) : State :=
  { t with hist := t.hist ++ [s.executeEntry t] }

/-! ## Taking an exception: the error halt -/

/-- The error halt: the cause in ERR, the phase Halted for good, one history entry, nothing else written. It is the whole
response to an error: no state is saved, there is no vector and no handler (R106, R198, R201), and no return from it
(R203). -/
def State.errorHalt (s : State) (e : ErrCode) : State :=
  s.record { s with err := e, phase := .halted }

/-! ## The epilogue -/

/-- How an instruction that completes leaves the execute phase (R107). -/
inductive Advance where
  /-- PC <- PC + 1. -/
  | sequential
  /-- A taken jump, whose target the body has written to PC. -/
  | jumped
  /-- HALT. -/
  | stop
deriving DecidableEq, Repr

/-- The epilogue of an execute phase that began in `s`, its body having made `t` of it (R107). -/
def State.epilogue (s : State) (adv : Advance) (t : State) : State :=
  match adv with
  | .sequential => s.record { t with cycles := t.cycles + 1, pc := t.pc + 1, phase := .idle }
  | .jumped => s.record { t with cycles := t.cycles + 1, phase := .idle }
  | .stop => s.record { t with phase := .halted }

/-! ## The execute phase -/

/-- What the body of an instruction answers: an error, raised before anything is written, or the state it made and how to
go on (R106). -/
abbrev BodyResult := Except ErrCode (Advance × State)

/-- The state after an execute phase with a given body result: the epilogue, or the error halt (R106, R107). -/
def State.afterBody (s : State) : BodyResult → State
  | .ok (adv, t) => s.epilogue adv t
  | .error e => s.errorHalt e

/-- The execute phase of an instruction. It always answers a next state: an error of AEV2 is one (R106). -/
def execute (body : State → BodyResult) (s : State) : Result := .next (s.afterBody (body s))

/-- The body of a class-D instruction that reads its operand's cell (R109): `use` says what it does with the value. -/
def readBody (ops : List Operand) (use : State → Word → Except ErrCode State) (s : State) : BodyResult :=
  (readOperand ops s.mem).bind fun m => (use s m).map fun t => (.sequential, t)

/-- The body of a class-N instruction: no operand, and then `result` (R108). -/
def noneBody (ops : List Operand) (adv : Advance) (result : State → State) (s : State) : BodyResult :=
  (resolveNone ops).map fun _ => (adv, result s)

/-- `jump(cond, o)`: the target is fetched before the condition is tested, and a negative target is an error only when the
jump is taken (R109, R165). -/
def jumpBody (cond : State → Bool) (ops : List Operand) (s : State) : BodyResult :=
  (readTarget ops s.mem).bind fun t =>
    if cond s then
      if t < 0 then .error .outOfBounds else .ok (.jumped, s.setPc t.toNat)
    else .ok (.sequential, s)

/-- A body that only EXT_JUMPS implements: without it the execute phase raises UnknownInstruction before it resolves the
operand (R70, R106, R171). -/
def extendedBody (body : State → BodyResult) (s : State) : BodyResult :=
  if s.extJumps then body s else .error .unknownInstruction

/-! ## Fetch and decode -/

/-- Fetch past the end: a normal halt (R103). -/
def State.haltPastEnd (s : State) : State := { s with phase := .halted }

/-- Fetch of a line (R104). -/
def State.fetchLine (s : State) (line : Line) : State :=
  { s with
    irasm := some line
    ir := none
    phase := .fetched line
    hist := s.hist ++ [s.traceEntry .fetch line] }

/-- Decode of a staged line (R105). -/
def State.decodeLine (s : State) (line : Line) : State :=
  { s with
    ir := (Mnemonic.ofName (split line).1).map displayOpcode
    phase := .decoded (split line).1 (split line).2
    hist := s.hist ++ [s.traceEntry .decode line] }

/-- The step of phase Idle: a fetch, or the normal halt past the end of the program (R101, R103, R104). -/
def State.fetchPhase (s : State) : State :=
  match s.prog[s.pc]? with
  | none => s.haltPastEnd
  | some line => s.fetchLine line

/-- The Boolean a `step()` returns, from the state after it: whether execution may continue (R101, R116). -/
def State.continues (s : State) : Bool := !s.halted

/-! ## Putting one instruction where the next step runs it -/

/-- The instruction store with one line put at an index, padded with empty lines where it is shorter. -/
def putLine : List Line → Nat → Line → List Line
  | [], 0, l => [l]
  | [], n + 1, l => [] :: putLine [] n l
  | _ :: rest, 0, l => l :: rest
  | k :: rest, n + 1, l => k :: putLine rest n l

/-- The compiled line of the instruction a table word stands for; the empty line, which no mnemonic names, for a word
that stands for none (notes/assumptions/13.md). -/
def tableLine (nbits w : Nat) : Line :=
  match decodeTableWord nbits w with
  | some i => encode i
  | none => []

/-- The state with a line put at PROG[PC], fetched and decoded, so that the very next step runs its execute phase. -/
def State.stageLine (s : State) (line : Line) : State :=
  ({ s with prog := putLine s.prog s.pc line, phase := .idle }.fetchLine line).decodeLine line

end Sys2Proof.Machine
end

