-- ==== Sys2Proof/Machine/Arithmetic.lean ====
section
/-! DEFINITION. ADD, SUB, MUL, DIV (spec/41_arithmetic.md). -/

namespace Sys2Proof.Machine

/-- ADD addr (R130). -/
def execAdd (ops : List Operand) (s : State) : Result :=
  execute (readBody ops (fun s m =>
    .ok ((s.setFlags (updateFlags (rawSum s.acc m) .add)).setAcc (mask16 (rawSum s.acc m))))) s

/-- SUB addr (R131). -/
def execSub (ops : List Operand) (s : State) : Result :=
  execute (readBody ops (fun s m =>
    .ok ((s.setFlags (updateFlags (rawDifference s.acc m) .sub)).setAcc (mask16 (rawDifference s.acc m))))) s

/-- MUL addr; the flags keep their values (R132). -/
def execMul (ops : List Operand) (s : State) : Result :=
  execute (readBody ops (fun s m => .ok (s.setAcc (mask16 (rawProduct s.acc m))))) s

/-- DIV addr; a zero divisor raises DivisionByZero, and the flags keep their values (R133). -/
def execDiv (ops : List Operand) (s : State) : Result :=
  execute (readBody ops (fun s m =>
    if m = 0#16 then .error .divByZero else .ok (s.setAcc (mask16 (rawQuotient s.acc m))))) s

end Sys2Proof.Machine
end

