-- ==== Sys2Proof/Machine/Compare.lean ====
section
/-! DEFINITION. CMP (spec/44_compare.md). -/

namespace Sys2Proof.Machine

/-- CMP addr: the flags of SUB, with ACC unchanged (R160). -/
def execCmp (ops : List Operand) (s : State) : Result :=
  execute (readBody ops (fun s m => .ok (s.setFlags (updateFlags (rawDifference s.acc m) .sub)))) s

end Sys2Proof.Machine
end

