-- ==== Sys2Proof/Machine/Control.lean ====
section
/-! DEFINITION. The jumps, HALT and NOP (spec/45_control.md). None writes the flags or ACC. -/

namespace Sys2Proof.Machine

/-- JMP target (R166). -/
def execJmp (ops : List Operand) (s : State) : Result :=
  execute (jumpBody (fun _ => true) ops) s

/-- JZ target (R167). -/
def execJz (ops : List Operand) (s : State) : Result :=
  execute (jumpBody (fun s => s.flags.z) ops) s

/-- JNZ target (R168). -/
def execJnz (ops : List Operand) (s : State) : Result :=
  execute (jumpBody (fun s => !s.flags.z) ops) s

/-- JC target (R169). -/
def execJc (ops : List Operand) (s : State) : Result :=
  execute (jumpBody (fun s => s.flags.c) ops) s

/-- JNC target (R170). -/
def execJnc (ops : List Operand) (s : State) : Result :=
  execute (jumpBody (fun s => !s.flags.c) ops) s

/-- JV target, under EXT_JUMPS (R171). -/
def execJv (ops : List Operand) (s : State) : Result :=
  execute (extendedBody (jumpBody (fun s => s.flags.v) ops)) s

/-- JNV target, under EXT_JUMPS (R172). -/
def execJnv (ops : List Operand) (s : State) : Result :=
  execute (extendedBody (jumpBody (fun s => !s.flags.v) ops)) s

/-- JN target, under EXT_JUMPS (R173). -/
def execJn (ops : List Operand) (s : State) : Result :=
  execute (extendedBody (jumpBody (fun s => s.flags.n) ops)) s

/-- JNN target, under EXT_JUMPS (R174). -/
def execJnn (ops : List Operand) (s : State) : Result :=
  execute (extendedBody (jumpBody (fun s => !s.flags.n) ops)) s

/-- HALT: the body writes nothing, the epilogue makes the normal halt (R175). -/
def execHalt (ops : List Operand) (s : State) : Result :=
  execute (noneBody ops .stop (fun s => s)) s

/-- NOP (R176). -/
def execNop (ops : List Operand) (s : State) : Result :=
  execute (noneBody ops .sequential (fun s => s)) s

end Sys2Proof.Machine
end

