-- ==== Sys2Proof/Machine/Logic.lean ====
section
/-! DEFINITION. AND, OR, XOR, NOT (spec/42_logic.md). None writes the flags. -/

namespace Sys2Proof.Machine

/-- AND addr (R140). -/
def execAnd (ops : List Operand) (s : State) : Result :=
  execute (readBody ops (fun s m => .ok (s.setAcc (s.acc &&& m)))) s

/-- OR addr (R141). -/
def execOr (ops : List Operand) (s : State) : Result :=
  execute (readBody ops (fun s m => .ok (s.setAcc (s.acc ||| m)))) s

/-- XOR addr (R142). -/
def execXor (ops : List Operand) (s : State) : Result :=
  execute (readBody ops (fun s m => .ok (s.setAcc (s.acc ^^^ m)))) s

/-- NOT (R143). -/
def execNot (ops : List Operand) (s : State) : Result :=
  execute (noneBody ops .sequential (fun s => s.setAcc (~~~s.acc))) s

end Sys2Proof.Machine
end

