-- ==== Sys2Proof/Machine/Transfer.lean ====
section
/-! DEFINITION. LDA, STA, LDI (spec/43_transfer.md). None writes the flags. -/

namespace Sys2Proof.Machine

/-- LDA addr (R150). -/
def execLda (ops : List Operand) (s : State) : Result :=
  execute (readBody ops (fun s m => .ok (s.setAcc m))) s

/-- STA addr; the cell is not read first (R151). -/
def execSta (ops : List Operand) (s : State) : Result :=
  execute (fun s => (resolveDirect ops).bind fun a =>
    (s.mem.write a s.acc).map fun m => (.sequential, s.setMem m)) s

/-- LDI imm (R152). -/
def execLdi (ops : List Operand) (s : State) : Result :=
  execute (fun s => (resolveImmediate ops).map fun i => (.sequential, s.setAcc (mask16 i))) s

end Sys2Proof.Machine
end

