-- ==== Sys2Proof/Machine/Dispatch.lean ====
section
/-! DEFINITION. One arm per constructor of `Instr`: the execute phase of the instruction (spec/40_cycle.md R106). -/

namespace Sys2Proof.Machine

def exec (i : Instr) (s : State) : Host.Outcome State Fault Refusal :=
  match i with
  | .add ops => Sys2Proof.Machine.execAdd ops s
  | .sub ops => Sys2Proof.Machine.execSub ops s
  | .mul ops => Sys2Proof.Machine.execMul ops s
  | .div ops => Sys2Proof.Machine.execDiv ops s
  | .and ops => Sys2Proof.Machine.execAnd ops s
  | .or ops => Sys2Proof.Machine.execOr ops s
  | .xor ops => Sys2Proof.Machine.execXor ops s
  | .not ops => Sys2Proof.Machine.execNot ops s
  | .lda ops => Sys2Proof.Machine.execLda ops s
  | .sta ops => Sys2Proof.Machine.execSta ops s
  | .ldi ops => Sys2Proof.Machine.execLdi ops s
  | .cmp ops => Sys2Proof.Machine.execCmp ops s
  | .jmp ops => Sys2Proof.Machine.execJmp ops s
  | .jz ops => Sys2Proof.Machine.execJz ops s
  | .jnz ops => Sys2Proof.Machine.execJnz ops s
  | .jc ops => Sys2Proof.Machine.execJc ops s
  | .jnc ops => Sys2Proof.Machine.execJnc ops s
  | .jv ops => Sys2Proof.Machine.execJv ops s
  | .jnv ops => Sys2Proof.Machine.execJnv ops s
  | .jn ops => Sys2Proof.Machine.execJn ops s
  | .jnn ops => Sys2Proof.Machine.execJnn ops s
  | .halt ops => Sys2Proof.Machine.execHalt ops s
  | .nop ops => Sys2Proof.Machine.execNop ops s

end Sys2Proof.Machine
end

