-- ==== Sys2Proof/Machine/Step.lean ====
section
/-! DEFINITION. One step of the model is one host `step()`: it advances one phase (spec/40_cycle.md R101). -/

namespace Sys2Proof.Machine

/-- `step()` (R101 to R106). A line whose mnemonic is not declared makes the error halt of R192. What the call returns
besides the state is `State.continues` of the state after it. -/
def step (s : State) : Host.Outcome State Fault Refusal :=
  match s.phase with
  | .halted => .next s
  | .idle => .next s.fetchPhase
  | .fetched line => .next (s.decodeLine line)
  | .decoded mnem ops =>
    match s.prog[s.pc]? with
    | none => .fault .noCurrentLine
    | some _ =>
      match instrOfTokens mnem ops with
      | .ok i => exec i s
      | .error _ => .next (s.errorHalt .unknownInstruction)

/-- The state with the instruction of a table word put at PROG[PC], fetched and decoded, so that the very next step runs
its execute phase. It stands for a program loaded from outside (R221; notes/assumptions/13.md). -/
def State.withFetchWord (s : State) (nbits w : Nat) : State := s.stageLine (tableLine nbits w)

end Sys2Proof.Machine
end

