-- ==== Sys2Proof/Machine/Assembler.lean ====
section
/-! DEFINITION. The two-pass assembler (spec/30_encoding.md R80 to R89): programs reach the core only as its output
(spec/00_scope.md R4). -/

namespace Sys2Proof.Machine

/-- The label table: label name to the index of a compiled line, no name twice (R83). -/
abbrev LabelTable := List (Line × Nat)

/-- The one failure of the assembler: a malformed label definition on a source line, numbered from 1 (R81, R82, R86). -/
inductive AsmError where
  | syntaxError (lineNumber : Nat)
deriving DecidableEq, Repr

/-- A line of source after tokenization: the mnemonic as written and the operand tokens (R81). -/
abbrev SourceInstr := Line × List Line

/-- A letter or `_` (R82). -/
def isLabelStart (c : Char) : Bool :=
  (decide (65 ≤ c.toNat) && decide (c.toNat ≤ 90)) || (decide (97 ≤ c.toNat) && decide (c.toNat ≤ 122)) || c == '_'

/-- A letter, a digit or `_` (R82). -/
def isLabelChar (c : Char) : Bool := isLabelStart c || (decDigit c).isSome

/-- `[A-Za-z_][A-Za-z0-9_]*` (R82). -/
def isLabelName : Line → Bool
  | [] => false
  | c :: cs => isLabelStart c && cs.all isLabelChar

/-- The table with a label set to an index; an earlier definition is overwritten (R83). -/
def setLabel : LabelTable → Line → Nat → LabelTable
  | [], name, n => [(name, n)]
  | (k, m) :: rest, name, n => if k = name then (k, n) :: rest else (k, m) :: setLabel rest name n

/-- The index of a label. -/
def findLabel : LabelTable → Line → Option Nat
  | [], _ => none
  | (k, m) :: rest, name => if k = name then some m else findLabel rest name

/-- A line without one trailing carriage return (R81). -/
def dropReturn (l : Line) : Line := if l.getLast? = some '\r' then l.dropLast else l

/-- The source lines of a text: a line ends at a line feed (R81). -/
def sourceLines (text : Line) : List Line := (splitAtChar '\n' text).map dropReturn

/-- A line without its comment (R81). -/
def dropComment (l : Line) : Line := l.takeWhile (fun c => c != ';')

/-- The text before the first `:` and the text after it, if there is one (R81, R82). -/
def splitLabel (s : Line) : Option (Line × Line) :=
  if s.contains ':' then
    some (s.takeWhile (fun c => c != ':'), (s.dropWhile (fun c => c != ':')).tail)
  else none

/-- What pass 1 has made so far: the instructions in order and the label table. -/
structure Pass1 where
  out : List SourceInstr
  labels : LabelTable
deriving DecidableEq, Repr

/-- The instruction on a line, if anything is left of it, appended (R81). -/
def Pass1.addInstr (p : Pass1) (s : Line) : Pass1 :=
  if s = [] then p
  else
    let (mnem, rest) := splitWord s
    ⟨p.out ++ [(mnem, splitOperands rest)], p.labels⟩

/-- Pass 1 on one source line (R81). -/
def Pass1.line (p : Pass1) (number : Nat) (l : Line) : Except AsmError Pass1 :=
  let s := trim (dropComment l)
  match splitLabel s with
  | none => .ok (p.addInstr s)
  | some (name, rest) =>
    if isLabelName (trim name) then
      .ok ((Pass1.mk p.out (setLabel p.labels (trim name) p.out.length)).addInstr (trim rest))
    else .error (.syntaxError number)

/-- Pass 1 on the source lines from a line number on (R81). -/
def pass1 : Pass1 → Nat → List Line → Except AsmError Pass1
  | p, _, [] => .ok p
  | p, number, l :: rest => (p.line number l).bind fun q => pass1 q (number + 1) rest

/-- An operand token after pass 2: a token that is a label becomes its index, any other passes through (R84). -/
def substitute (labels : LabelTable) (token : Line) : Line :=
  match findLabel labels token with
  | some n => renderNat n
  | none => token

/-- Pass 2 on one instruction: substitution and normalization (R84, R89). -/
def pass2 (labels : LabelTable) (i : SourceInstr) : Line :=
  compiledLine (upper i.1) (i.2.map (substitute labels))

/-- `assemble(sourceText)` (R80). It is a function of the text alone, so assembling a text again gives the same (R88). -/
def assemble (text : Line) : Except AsmError (List Line × LabelTable) :=
  (pass1 ⟨[], []⟩ 1 (sourceLines text)).map fun p => (p.out.map (pass2 p.labels), p.labels)

end Sys2Proof.Machine
end

