-- ==== Sys2Proof/Machine/HostOps.lean ====
section
/-! DEFINITION. The operations by which the host drives the core between steps: load, run, getState, the memory write, the
memory expansion and reset (spec/70_reset_and_hazards.md R220 to R228). `step` is in Step.lean, `assemble` in
Assembler.lean. -/

namespace Sys2Proof.Machine

/-- `load(compiledLines, sourceText)`; the source text is read by no rule (R221). -/
def State.load (s : State) (lines : List Line) : State where
  acc := 0#16
  pc := 0
  phase := .idle
  flags := Flags.clear
  cycles := 0
  ir := none
  irasm := none
  err := .none
  mem := s.mem
  prog := lines
  hist := []
  extJumps := s.extJumps

/-- `step()` as the host sees it: the state and whether execution may continue (R101, R116, R222). -/
def hostStep (s : State) : Host.Outcome (State × Bool) Fault Refusal :=
  match step s with
  | .next t => .next (t, t.continues)
  | .fault f => .fault f
  | .refused r => .refused r

/-- `run(maxSteps)`: how many `step()` calls it makes, the stopping one included, and the state it ends in (R225). -/
def run : Nat → State → Host.Outcome (Nat × State) Fault Refusal
  | 0, s => .next (0, s)
  | k + 1, s =>
    if s.halted then .next (0, s)
    else
      match step s with
      | .fault f => .fault f
      | .refused r => .refused r
      | .next t =>
        if t.continues then
          match run k t with
          | .next (n, u) => .next (n + 1, u)
          | .fault f => .fault f
          | .refused r => .refused r
        else .next (1, t)

/-- `run()` without a budget (R7, R225). -/
def runDefault (s : State) : Host.Outcome (Nat × State) Fault Refusal := run Config.runMaxStepsDefault s

/-- The copy of the state that `getState` returns (R226). -/
structure Snapshot where
  accumulator : Word
  pc : Nat
  ir : Option Nat
  irAsm : Option Line
  flags : Flags
  halted : Bool
  cycles : Nat
  memory : List Word
  history : List HistEntry
  err : ErrCode
deriving DecidableEq, Repr

/-- `getState()` (R226). -/
def State.getState (s : State) : Snapshot :=
  ⟨s.acc, s.pc, s.ir, s.irasm, s.flags, s.halted, s.cycles, s.mem.toList, s.hist, s.err⟩

/-- The host memory write; `none` where it is refused, which changes nothing (R227). -/
def State.hostWrite (s : State) (a v : Int) : Option State :=
  if 0 ≤ a ∧ a < (s.mem.size : Int) ∧ 0 ≤ v ∧ v ≤ 65535 then
    some (s.setMem (s.mem.set a.toNat (mask16 v)))
  else none

/-- The memory expansion with given contents of the new cells; `none` where it is refused (R228). -/
def State.hostExpandWith (s : State) (fill : Nat → Word) (newSize : Nat) : Option State :=
  if s.mem.size < newSize ∧ newSize ≤ Config.maxCells then
    some (s.setMem (s.mem.expand fill newSize))
  else none

/-- The memory expansion, the new cells holding EXPAND_INIT (R228). -/
def State.hostExpand (s : State) (newSize : Nat) : Option State := s.hostExpandWith Config.expandInit newSize

/-- The code of an error cause, as the host reads ERR (R32, R190). -/
def ErrCode.code : ErrCode → Nat
  | .none => 0
  | .syntaxError => 1
  | .unknownInstruction => 2
  | .modeMismatch => 3
  | .outOfBounds => 4
  | .divByZero => 5

end Sys2Proof.Machine
end

