-- ==== Sys2Proof/Safety.lean ====
section
/-! DEFINITION. What counts as a safe run, and the terms the statements use: the invariant of the reachable states, how a
run ends, and what an execute phase leaves unchanged (spec/10_state.md R38, spec/70_reset_and_hazards.md R229). -/

namespace Sys2Proof.Machine

/-- The phase machine agrees with the program: a staged line, or what decode made of it, is the line at PC (R38). IRASM
holds it too (R30). -/
def State.stagedAgrees (s : State) : Prop :=
  match s.phase with
  | .fetched line => s.prog[s.pc]? = some line ∧ s.irasm = some line
  | .decoded mnem ops =>
    ∃ line, s.prog[s.pc]? = some line ∧ s.irasm = some line ∧ split line = (mnem, ops)
  | _ => True

/-- The invariants of every reachable state (R38). ACC and the cells are 16-bit and HALTED is a view of PHASE by their
types; the memory's canonical form is the model's own. -/
structure State.Inv (s : State) : Prop where
  memory : s.mem.wf = true
  errorHalted : s.err ≠ .none → s.phase = .halted
  staged : s.stagedAgrees

/-- The number of history entries with a phase tag (R117). -/
def State.countTag (s : State) (tag : PhaseTag) : Nat :=
  (s.hist.filter (fun e => decide (e.phase = tag))).length

/-- The counting property with its lead between a fetch and its execute phase (R117). -/
def State.Counted (s : State) : Prop :=
  match s.phase with
  | .idle | .halted =>
    s.countTag .fetch = s.countTag .execute ∧ s.countTag .decode = s.countTag .execute
  | .fetched _ =>
    s.countTag .fetch = s.countTag .execute + 1 ∧ s.countTag .decode = s.countTag .execute
  | .decoded _ _ =>
    s.countTag .fetch = s.countTag .execute + 1 ∧ s.countTag .decode = s.countTag .execute + 1

/-- A run has ended: the phase is Halted (R229). -/
def State.ended (s : State) : Prop := s.phase = .halted

/-- A run has ended well: it has ended, and not by an error (R229). -/
def State.endedWell (s : State) : Prop := s.ended ∧ s.err = .none

/-- A run with a step budget is safe: the model has not stopped and no error has halted the core. -/
def SafeRun (budget : Nat) (s : State) : Prop :=
  ∃ n t, run budget s = .next (n, t) ∧ t.err = .none

/-- The words of an execute phase that completes and goes on, all but what it does to ACC, the flags and MEM: PHASE, PC,
CYCLES and HIST as the epilogue leaves them, and every other element unchanged (R106, R107, R208). -/
structure Completed (s t : State) (pcAfter : Nat) : Prop where
  phase : t.phase = .idle
  pc : t.pc = pcAfter
  cycles : t.cycles = s.cycles + 1
  hist : t.hist = s.hist ++ [s.executeEntry t]
  ir : t.ir = s.ir
  irasm : t.irasm = s.irasm
  err : t.err = s.err
  prog : t.prog = s.prog
  extJumps : t.extJumps = s.extJumps

/-- An error halt from `s` with a given cause: the cause and the phase change, one execute entry with equal snapshots is
appended, and every other element is unchanged (R106, R198, R208). -/
structure ErrorHalted (s t : State) (e : ErrCode) : Prop where
  phase : t.phase = .halted
  err : t.err = e
  hist : t.hist = s.hist ++ [⟨.execute, s.currentLine, s.regs, s.regs, some (s.mem, s.mem)⟩]
  acc : t.acc = s.acc
  pc : t.pc = s.pc
  flags : t.flags = s.flags
  cycles : t.cycles = s.cycles
  ir : t.ir = s.ir
  irasm : t.irasm = s.irasm
  mem : t.mem = s.mem
  prog : t.prog = s.prog
  extJumps : t.extJumps = s.extJumps

/-- Every data cell, and MEM_SIZE, reads as before. -/
def sameMemory (s t : State) : Prop :=
  t.mem.size = s.mem.size ∧ ∀ a : Int, t.mem.read a = s.mem.read a

/-- Every data cell but one, and MEM_SIZE, reads as before. -/
def sameMemoryExcept (s t : State) (addr : Int) : Prop :=
  t.mem.size = s.mem.size ∧ ∀ a : Int, a ≠ addr → t.mem.read a = s.mem.read a

/-! ## The shapes of the instruction rules

An instruction's rule has parts: how it is encoded, what it does when it completes, and which error halt each other form
of it makes. The structures below say these parts once; a statement names the instruction and its result. -/

/-- The execute phase of `i` in `s` answers the error halt with cause `e`. -/
def HaltsWith (i : Instr) (s : State) (e : ErrCode) : Prop := ∃ t, exec i s = .next t ∧ ErrorHalted s t e

/-- The address is that of a data cell (R53). -/
def State.validAddress (s : State) (a : Int) : Prop := 0 ≤ a ∧ a < (s.mem.size : Int)

/-- The operands are not one operand that resolves to a mode: the count is not one, or the token is malformed, an
unresolved label or an Immediate outside i64 (R108, R191). -/
def noSingleOperand : List Operand → Bool
  | [.direct _] => false
  | [.immediate i] => !inI64 i
  | _ => true

/-- The compiled line of the mnemonic with one operand token decodes to the instruction with that operand (R61, R62). -/
def LineDecodes (m : Mnemonic) (mk : List Operand → Instr) (o : Operand) : Prop :=
  decode (compiledLine m.name [o.token]) = .ok (mk [o])

/-- Under every DISPLAY_OPCODE that gives the mnemonic a 4-bit opcode, the display word of the mnemonic with an operand is
the 16-bit word with that opcode in bits[15:12] and `field` in bits[11:0] (R72, R75). -/
def ShownAs (m : Mnemonic) (o : DisplayOperand) (field : Nat) : Prop :=
  ∀ opcodeOf : Mnemonic → Nat, opcodeOf m ≤ 15 →
    ∃ w : BitVec 16, displayEncode opcodeOf m o = .ok (.w16 w) ∧ w.toNat = opcodeOf m * 4096 + field

/-- The encoding of a class-D instruction: its compiled line, and its display word for an address of 12 bits. -/
structure DirectEncoded (m : Mnemonic) (mk : List Operand → Instr) : Prop where
  line : ∀ a : Int, LineDecodes m mk (.direct a)
  shown : ∀ a : Nat, a ≤ 4095 → ShownAs m (.direct (a : Int)) a

/-- The errors of a class-D instruction, whatever the state (R108, R191, R193, R194). -/
structure DirectErrors (mk : List Operand → Instr) : Prop where
  operands : ∀ (s : State) (ops : List Operand), noSingleOperand ops = true → HaltsWith (mk ops) s .syntaxError
  mode : ∀ (s : State) (i : Int), inI64 i = true → HaltsWith (mk [.immediate i]) s .modeMismatch
  bounds : ∀ (s : State) (a : Int), ¬ s.validAddress a → HaltsWith (mk [.direct a]) s .outOfBounds

/-- The execute phase of `i` in `s` completes with PC + 1, a given ACC and flags, and memory as it was. -/
def CompletesWith (i : Instr) (s : State) (acc : Word) (flags : Flags) : Prop :=
  ∃ t, exec i s = .next t ∧ Completed s t (s.pc + 1) ∧ t.acc = acc ∧ t.flags = flags ∧ sameMemory s t

/-- The rule of a class-D instruction that reads its cell and never stops on its value: ACC and the flags become functions
of what they were and of the cell. -/
structure ReadRule (m : Mnemonic) (mk : List Operand → Instr) (newAcc : Word → Word → Word)
    (newFlags : Flags → Word → Word → Flags) : Prop where
  encoded : DirectEncoded m mk
  completes : ∀ (s : State) (a : Int), s.validAddress a →
    CompletesWith (mk [.direct a]) s (newAcc s.acc (s.mem.get a.toNat)) (newFlags s.flags s.acc (s.mem.get a.toNat))
  errors : DirectErrors mk

/-- The rule of a class-N instruction that completes: ACC becomes a function of what it was (R108). -/
structure BareRule (m : Mnemonic) (mk : List Operand → Instr) (newAcc : Word → Word) : Prop where
  line : decode m.name = .ok (mk [])
  shown : ShownAs m .none 0
  completes : ∀ s : State, CompletesWith (mk []) s (newAcc s.acc) s.flags
  operands : ∀ (s : State) (ops : List Operand), ops ≠ [] → HaltsWith (mk ops) s .syntaxError

/-- The execute phase of a jump completes at a given PC and writes neither ACC, nor the flags, nor memory. -/
def JumpsTo (i : Instr) (s : State) (pcAfter : Nat) : Prop :=
  ∃ t, exec i s = .next t ∧ Completed s t pcAfter ∧ t.acc = s.acc ∧ t.flags = s.flags ∧ sameMemory s t

/-- The rule of a class-J instruction in the states where it is implemented: `cond` says whether it jumps (R109, R165). -/
structure JumpRule (m : Mnemonic) (mk : List Operand → Instr) (implemented : State → Prop) (cond : State → Bool) :
    Prop where
  lineImmediate : ∀ i : Int, LineDecodes m mk (.immediate i)
  lineDirect : ∀ a : Int, LineDecodes m mk (.direct a)
  shownImmediate : ∀ i : Nat, i ≤ 4095 → ShownAs m (.immediate (i : Int)) i
  shownDirect : ∀ a : Nat, a ≤ 4095 → ShownAs m (.direct (a : Int)) a
  takenImmediate : ∀ (s : State) (i : Int), implemented s → inI64 i = true → cond s = true → 0 ≤ i →
    JumpsTo (mk [.immediate i]) s i.toNat
  takenNegative : ∀ (s : State) (i : Int), implemented s → inI64 i = true → cond s = true → i < 0 →
    HaltsWith (mk [.immediate i]) s .outOfBounds
  notTakenImmediate : ∀ (s : State) (i : Int), implemented s → inI64 i = true → cond s = false →
    JumpsTo (mk [.immediate i]) s (s.pc + 1)
  takenDirect : ∀ (s : State) (a : Int), implemented s → s.validAddress a → cond s = true →
    JumpsTo (mk [.direct a]) s (s.mem.get a.toNat).toNat
  notTakenDirect : ∀ (s : State) (a : Int), implemented s → s.validAddress a → cond s = false →
    JumpsTo (mk [.direct a]) s (s.pc + 1)
  bounds : ∀ (s : State) (a : Int), implemented s → ¬ s.validAddress a → HaltsWith (mk [.direct a]) s .outOfBounds
  operands : ∀ (s : State) (ops : List Operand), implemented s → noSingleOperand ops = true →
    HaltsWith (mk ops) s .syntaxError

/-- Whether a class-J mnemonic takes its jump under given flags (R166 to R174); no other mnemonic jumps. -/
def jumpTaken (m : Mnemonic) (f : Flags) : Bool :=
  match m with
  | .jmp => true
  | .jz => f.z
  | .jnz => !f.z
  | .jc => f.c
  | .jnc => !f.c
  | .jv => f.v
  | .jnv => !f.v
  | .jn => f.n
  | .jnn => !f.n
  | .add | .sub | .mul | .div | .and | .or | .xor | .not | .lda | .sta | .ldi | .cmp | .halt | .nop => false

/-- The execute phase of `i` completes as a jump to `target`, and the next step is the normal halt of a fetch past the end:
it changes PHASE alone (R103, R178). -/
def LeavesProgram (i : Instr) (s : State) (target : Nat) : Prop :=
  ∃ t, exec i s = .next t ∧ Completed s t target ∧ t.acc = s.acc ∧ t.flags = s.flags ∧ sameMemory s t ∧
    step t = .next { t with phase := .halted }

/-! ## Source lines

Each source line by itself, as pass 1 reads it: its comment dropped and the rest trimmed (R81). -/

/-- What is before the first `:` of a source line, trimmed: the label it defines, if it has a `:` (R81, R82). -/
def labelOf (l : Line) : Option Line := (splitLabel (trim (dropComment l))).map fun p => trim p.1

/-- The text of the instruction on a source line, after its label; empty if the line has none (R81). -/
def instrText (l : Line) : Line :=
  match splitLabel (trim (dropComment l)) with
  | none => trim (dropComment l)
  | some (_, rest) => trim rest

/-- The texts of the instructions of some source lines, in order: lines without an instruction give none (R81). -/
def instrTexts (ls : List Line) : List Line := (ls.map instrText).filter fun s => !(s == [])

/-- The compiled line of an instruction's text under a label table (R81, R84). -/
def compiledText (labels : LabelTable) (s : Line) : Line :=
  compiledLine (upper (splitWord s).1) ((splitOperands (splitWord s).2).map (substitute labels))

/-- A source line has, outside its comment, a `:` whose left part is no label name (R82, R86). -/
def MalformedLabel (l : Line) : Prop :=
  ∃ before after : Line, trim (dropComment l) = before ++ ':' :: after ∧ ':' ∉ before ∧ isLabelName (trim before) = false

end Sys2Proof.Machine
end

