-- ==== Sys2Proof/Certificates/Slice0/Obligations.lean ====
section
/-! DEFINITION. The statements for the provers. Each docstring names the rule or the section of spec/ that the statement
formalises, and says where a clause is a choice of the spec's own (a D<n> of spec/92_eei_decisions.md) or of the model's. -/

open Sys2Proof Sys2Proof.Machine

/-! ## Reset and the phase machine -/

/-- After reset every element has its reset value. The zeros are the spec's own choice (D5; 70_reset_and_hazards.md section 1:
"The source gives no reset values. The zeros are this spec's own"); MEM holds MEM_INIT, which stays free (D4). The clause
`extJumps = false` is the decided default of the parameter EXT_JUMPS (00_scope.md section 4, D24, a choice of the spec's own);
that the parameter stands in State is the model's choice (notes/assumptions/8.md). -/
def Obligations.ResetLeavesTheResetValues : Prop :=
  State.reset.acc = 0#16 ∧ State.reset.pc = 0 ∧ State.reset.phase = .idle ∧ State.reset.halted = false ∧
  State.reset.flags = ⟨false, false, false, false⟩ ∧ State.reset.cycles = 0 ∧ State.reset.ir = none ∧
  State.reset.irasm = none ∧ State.reset.err = .none ∧ State.reset.prog = [] ∧ State.reset.hist = [] ∧
  State.reset.extJumps = false ∧ State.reset.mem.size = Config.memSize ∧
  (1 ≤ Config.memSize ∧ Config.memSize ≤ 65536) ∧
  ∀ a : Nat, a < Config.memSize → State.reset.mem.read a = .ok (Config.memInit a)

/-- The state after reset meets the invariants that every step keeps (10_state.md section 14, marked derived there; the
memory's canonical form is the model's own, notes/assumptions/3.md). -/
def Obligations.ResetMeetsTheInvariants : Prop := State.reset.Inv ∧ State.reset.Counted

/-- A step right after reset makes a normal halt and appends no history entry (70_reset_and_hazards.md section 1; it rests
on D5, PC = 0 and PROG empty at reset). -/
def Obligations.FirstStepAfterResetHalts : Prop :=
  ∃ t, step State.reset = .next t ∧ t.phase = .halted ∧ t.err = .none ∧ t.hist = [] ∧ t.continues = false

/-- R103: a fetch past the end is a normal halt that changes PHASE alone and returns false. -/
def Obligations.FetchPastTheEndHaltsNormally : Prop :=
  ∀ s : State, s.phase = .idle → s.prog.length ≤ s.pc →
    step s = .next { s with phase := .halted } ∧ ({ s with phase := .halted } : State).halted = true ∧
      ({ s with phase := .halted } : State).continues = false

/-- R104: fetch stages PROG[PC] in IRASM and PHASE, sets IR to NONE, appends one fetch entry and returns true; nothing else
changes. -/
def Obligations.FetchStagesTheLineAtPc : Prop :=
  ∀ (s : State) (line : Line), s.phase = .idle → s.prog[s.pc]? = some line →
    ∃ t, step s = .next t ∧ t.continues = true ∧
      t = { s with
            irasm := some line
            ir := none
            phase := .fetched line
            hist := s.hist ++ [⟨.fetch, line, ⟨s.acc, s.pc, s.flags⟩, ⟨s.acc, s.pc, s.flags⟩, none⟩] }

/-- Decode splits the staged line, shows the display opcode of a declared mnemonic in IR (NONE for any other), appends one
decode entry and returns true; it raises no error (40_cycle.md section 3; that decode never fails is D17, a choice of the
spec's own). -/
def Obligations.DecodeSplitsTheStagedLine : Prop :=
  ∀ (s : State) (line : Line), s.phase = .fetched line →
    ∃ t, step s = .next t ∧ t.continues = true ∧
      (∀ m : Mnemonic, (split line).1 = m.name → t.ir = some (displayOpcode m)) ∧
      ((∀ m : Mnemonic, (split line).1 ≠ m.name) → t.ir = none) ∧
      t = { s with
            ir := t.ir
            phase := .decoded (split line).1 (split line).2
            hist := s.hist ++ [⟨.decode, line, ⟨s.acc, s.pc, s.flags⟩, ⟨s.acc, s.pc, s.flags⟩, none⟩] }

/-- A step in Halted changes no state and returns false (40_cycle.md section 1; D32, a choice of the spec's own). -/
def Obligations.HaltedStepChangesNothing : Prop :=
  ∀ s : State, s.phase = .halted → step s = .next s ∧ s.continues = false

/-- A step runs the decoded instruction: when the line at PC decodes to `i`, the first step is its fetch, the second its
decode, and the third is `exec i` of the state after them (40_cycle.md section 1). -/
def Obligations.ThreeStepsRunTheDecodedInstruction : Prop :=
  ∀ (s : State) (line : Line) (i : Instr), s.phase = .idle → s.prog[s.pc]? = some line → decode line = .ok i →
    step s = .next (s.fetchLine line) ∧
    step (s.fetchLine line) = .next ((s.fetchLine line).decodeLine line) ∧
    step ((s.fetchLine line).decodeLine line) = exec i ((s.fetchLine line).decodeLine line)

/-- A line whose mnemonic is not one of the 23 declared ones makes the error halt with UNKNOWN_INSTRUCTION at its execute
phase (30_encoding.md section 3; D17, a choice of the spec's own). -/
def Obligations.UndeclaredMnemonicHalts : Prop :=
  ∀ (s : State) (mnem : Line) (ops : List Line), s.phase = .decoded mnem ops → s.pc < s.prog.length →
    (∀ m : Mnemonic, m.name ≠ mnem) → ∃ t, step s = .next t ∧ ErrorHalted s t .unknownInstruction

/-- Sample compiled lines, one for each family and operand form, decode to the instruction they stand for, with the text
written out from 30_encoding.md sections 1 to 3. -/
def Obligations.SampleLinesDecode : Prop :=
  decode "ADD [16]".toList = .ok (.add [.direct 16]) ∧
  decode "  add   0x1F ".toList = .ok (.add [.direct 31]) ∧
  decode "XOR [0b101]".toList = .ok (.xor [.direct 5]) ∧
  decode "NOT".toList = .ok (.not []) ∧
  decode "STA [-1]".toList = .ok (.sta [.direct (-1)]) ∧
  decode "LDI -5".toList = .ok (.ldi [.immediate (-5)]) ∧
  decode "LDI 0b11".toList = .ok (.ldi [.unresolved "0b11".toList]) ∧
  decode "CMP 0xG".toList = .ok (.cmp [.malformed "0xG".toList]) ∧
  decode "JNZ 007".toList = .ok (.jnz [.immediate 7]) ∧
  decode "JMP\t[ 2 ]".toList = .ok (.jmp [.direct 2]) ∧
  decode "HALT".toList = .ok (.halt []) ∧
  decode "ADD [0],".toList = .ok (.add [.direct 0, .malformed []]) ∧
  decode "FOO 5, 6".toList = .error (.unknownMnemonic "FOO".toList)

/-! ## Memory -/

/-- R54: MemRead gives the cell of a valid address and MemWrite replaces that cell alone; both raise OutOfBounds at any
other address, and then no cell changes, the raise being the error halt; MEM_SIZE is the size at the time of the access,
which no step changes and only an expansion makes greater. (That a cell reads back what was written needs the canonical
form of the memory, the model's own choice, notes/assumptions/3.md, which every step keeps.) -/
def Obligations.MemoryPortMovesOneCell : Prop :=
  (∀ (m : Memory) (a : Int) (v : Word), m.wf = true → 0 ≤ a → a < (m.size : Int) →
    m.read a = .ok (m.get a.toNat) ∧
    ∃ k, m.write a v = .ok k ∧ k.size = m.size ∧ k.read a = .ok v ∧ ∀ b : Int, b ≠ a → k.read b = m.read b) ∧
  (∀ (m : Memory) (a : Int) (v : Word), ¬(0 ≤ a ∧ a < (m.size : Int)) →
    m.read a = .error .outOfBounds ∧ m.write a v = .error .outOfBounds) ∧
  (∀ (s : State) (a : Int), ¬ s.validAddress a →
    HaltsWith (.lda [.direct a]) s .outOfBounds ∧ HaltsWith (.sta [.direct a]) s .outOfBounds) ∧
  (∀ s t : State, step s = .next t → t.mem.size = s.mem.size) ∧
  (∀ (s t : State) (n : Nat), s.hostExpand n = some t → s.mem.size < t.mem.size) ∧
  (∀ (s t : State) (a v : Int), s.hostWrite a v = some t → t.mem.size = s.mem.size) ∧
  (∀ (s : State) (lines : List Line), (s.load lines).mem.size = s.mem.size)

/-! ## Arithmetic -/

/-- R130, ADD: ACC becomes the sum mod 2^16; Z, N, C and V are those of the raw sum; the errors and the encoding. -/
def Obligations.AddStoresTheMaskedSum : Prop :=
  ReadRule .add .add (fun a m => BitVec.ofNat 16 (a.toNat + m.toNat))
    (fun _ a m => { z := decide (a.toNat + m.toNat = 0), c := false, v := decide (a.toNat + m.toNat > 32767), n := false })

/-- R131, SUB: ACC becomes the difference mod 2^16; Z, N, C and V are those of the raw difference; the errors and the
encoding. -/
def Obligations.SubStoresTheMaskedDifference : Prop :=
  ReadRule .sub .sub (fun a m => BitVec.ofInt 16 ((a.toNat : Int) - m.toNat))
    (fun _ a m =>
      { z := decide (a = m), c := decide (a.toNat > m.toNat), n := decide (a.toNat < m.toNat),
        v := decide ((a.toNat : Int) - m.toNat > 32767) || decide ((a.toNat : Int) - m.toNat < -32768) })

/-- MUL: ACC becomes the low 16 bits of the product, and the flags keep their values (41_arithmetic.md, MUL; that the flags
are unchanged is D19, a choice of the spec's own). -/
def Obligations.MulKeepsTheLowHalf : Prop :=
  ReadRule .mul .mul (fun a m => BitVec.ofNat 16 (a.toNat * m.toNat)) (fun f _ _ => f)

/-- DIV: with a divisor cell that is not 0, ACC becomes the floor of the quotient of the unsigned values, and the flags
keep their values; with a divisor cell of 0 it halts with DIV_BY_ZERO; its other errors are those of class D
(41_arithmetic.md, DIV; that the flags are unchanged is D19, and that an error writes nothing else D26, choices of the
spec's own). -/
def Obligations.DivStoresTheQuotientOrHalts : Prop :=
  DirectEncoded .div .div ∧ DirectErrors .div ∧
  (∀ (s : State) (a : Int), s.validAddress a → s.mem.get a.toNat ≠ 0#16 →
    CompletesWith (.div [.direct a]) s (BitVec.ofNat 16 (s.acc.toNat / (s.mem.get a.toNat).toNat)) s.flags) ∧
  (∀ (s : State) (a : Int), s.validAddress a → s.mem.get a.toNat = 0#16 → HaltsWith (.div [.direct a]) s .divByZero)

/-- R195: DIV whose divisor cell holds 0 halts the processor with DivisionByZero, ERR = 5. -/
def Obligations.DivisionByZeroHaltsTheProcessor : Prop :=
  ∀ (s : State) (a : Int), s.validAddress a → s.mem.get a.toNat = 0#16 →
    ∃ t, exec (.div [.direct a]) s = .next t ∧ t.halted = true ∧ t.err = .divByZero ∧ t.err.code = 5

/-! ## Logic -/

/-- AND, OR and XOR: bit i of ACC becomes the function of bit i of ACC and of the cell; the flags keep their values
(42_logic.md; that the flags are unchanged is D19, a choice of the spec's own). -/
def Obligations.LogicCombinesBitByBit : Prop :=
  ReadRule .and .and (fun a m => BitVec.ofFnLE (fun i : Fin 16 => a.getLsb i && m.getLsb i)) (fun f _ _ => f) ∧
  ReadRule .or .or (fun a m => BitVec.ofFnLE (fun i : Fin 16 => a.getLsb i || m.getLsb i)) (fun f _ _ => f) ∧
  ReadRule .xor .xor (fun a m => BitVec.ofFnLE (fun i : Fin 16 => a.getLsb i ^^ m.getLsb i)) (fun f _ _ => f)

/-- NOT: ACC becomes 0xFFFF - ACC and the flags keep their values; an operand is a SyntaxError (42_logic.md, NOT; D16 for
the operand and D19 for the flags are choices of the spec's own). -/
def Obligations.NotComplementsTheAccumulator : Prop :=
  BareRule .not .not (fun a => BitVec.ofNat 16 (0xFFFF - a.toNat))

/-! ## Transfer -/

/-- LDA: ACC becomes the cell, and the flags keep their values (43_transfer.md, LDA; the flags: D19, a choice of the spec's
own). -/
def Obligations.LdaLoadsTheCell : Prop := ReadRule .lda .lda (fun _ m => m) (fun f _ _ => f)

/-- STA: the cell at the operand's address, and no other, becomes ACC; ACC and the flags are unchanged; an error writes no
cell (43_transfer.md, STA; the flags: D19, a choice of the spec's own; that the cell reads back needs the memory's canonical
form, notes/assumptions/3.md). -/
def Obligations.StaStoresTheAccumulator : Prop :=
  DirectEncoded .sta .sta ∧ DirectErrors .sta ∧
  ∀ (s : State) (a : Int), s.mem.wf = true → s.validAddress a →
    ∃ t, exec (.sta [.direct a]) s = .next t ∧ Completed s t (s.pc + 1) ∧ t.acc = s.acc ∧ t.flags = s.flags ∧
      t.mem.read a = .ok s.acc ∧ sameMemoryExcept s t a ∧ t.mem.wf = true

/-- STA completes, and writes no cell but the addressed one, in every state, whether or not the memory is in its canonical
form (43_transfer.md, STA). -/
def Obligations.StaCompletesAndTouchesOneCell : Prop :=
  ∀ (s : State) (a : Int), s.validAddress a →
    ∃ t, exec (.sta [.direct a]) s = .next t ∧ Completed s t (s.pc + 1) ∧ t.acc = s.acc ∧ t.flags = s.flags ∧
      sameMemoryExcept s t a

/-- LDI: ACC becomes the Immediate mod 2^16, and the flags keep their values; a Direct is a mode mismatch whatever its
address; any other operands are a SyntaxError (43_transfer.md, LDI; the flags: D19, the i64 range: D14, choices of the
spec's own). -/
def Obligations.LdiLoadsTheMaskedImmediate : Prop :=
  (∀ i : Int, LineDecodes .ldi .ldi (.immediate i)) ∧
  (∀ i : Nat, i ≤ 4095 → ShownAs .ldi (.immediate (i : Int)) i) ∧
  (∀ (s : State) (i : Int), inI64 i = true →
    CompletesWith (.ldi [.immediate i]) s (BitVec.ofNat 16 (i % 65536).toNat) s.flags) ∧
  (∀ (s : State) (a : Int), HaltsWith (.ldi [.direct a]) s .modeMismatch) ∧
  (∀ (s : State) (ops : List Operand), noSingleOperand ops = true → HaltsWith (.ldi ops) s .syntaxError)

/-! ## Compare -/

/-- CMP: the flags of SUB, with ACC unchanged (44_compare.md; the "sub" tag is D21, a choice of the spec's own). -/
def Obligations.CmpSetsTheFlagsOfSub : Prop :=
  ReadRule .cmp .cmp (fun a _ => a)
    (fun _ a m =>
      { z := decide (a = m), c := decide (a.toNat > m.toNat), n := decide (a.toNat < m.toNat),
        v := decide ((a.toNat : Int) - m.toNat > 32767) || decide ((a.toNat : Int) - m.toNat < -32768) })

/-! ## The flag rule -/

/-- R110: `update_flags(r, op)` writes all four flags as the rule says. -/
def Obligations.UpdateFlagsFollowsTheRule : Prop :=
  ∀ (r : Int) (op : FlagOp),
    ((updateFlags r op).z = true ↔ r = 0) ∧
    ((updateFlags r op).n = true ↔ r < 0) ∧
    ((updateFlags r op).v = true ↔ r > 32767 ∨ r < -32768) ∧
    ((updateFlags r op).c = true ↔ (op = .add ∧ r < 0) ∨ (op = .sub ∧ r > 0))

/-- After SUB and after CMP exactly one of Z, N and C is true, and it says how ACC and the cell compared (40_cycle.md
section 6, an inference the spec marks as derived; CMP's tag is D21, a choice of the spec's own). -/
def Obligations.SubAndCmpOrderTheirOperands : Prop :=
  ∀ (i : Instr) (s t : State) (a : Int), i = .sub [.direct a] ∨ i = .cmp [.direct a] → s.validAddress a →
    exec i s = .next t →
    (t.flags.z = true ↔ s.acc.toNat = (s.mem.get a.toNat).toNat) ∧
    (t.flags.n = true ↔ s.acc.toNat < (s.mem.get a.toNat).toNat) ∧
    (t.flags.c = true ↔ s.acc.toNat > (s.mem.get a.toNat).toNat) ∧
    (t.flags.z.toNat + t.flags.n.toNat + t.flags.c.toNat = 1)

/-- Only ADD, SUB and CMP write the flags: an execute phase of any other instruction, completed or not, leaves all four as
they were (10_state.md section 5; D19, a choice of the spec's own). -/
def Obligations.OnlyAddSubCmpWriteFlags : Prop :=
  ∀ (i : Instr) (s t : State), exec i s = .next t →
    i.mnemonic ≠ .add → i.mnemonic ≠ .sub → i.mnemonic ≠ .cmp → t.flags = s.flags

/-- Only ADD, SUB, MUL, DIV, AND, OR, XOR, NOT, LDA and LDI write ACC (10_state.md section 2, a table the spec marks as
derived). -/
def Obligations.OnlyTheListedInstructionsWriteAcc : Prop :=
  ∀ (i : Instr) (s t : State), exec i s = .next t →
    i.mnemonic ∈ [.sta, .cmp, .jmp, .jz, .jnz, .jc, .jnc, .jv, .jnv, .jn, .jnn, .halt, .nop] → t.acc = s.acc

/-- Only STA writes data memory (10_state.md section 10). -/
def Obligations.OnlyStaWritesMemory : Prop :=
  ∀ (i : Instr) (s t : State), exec i s = .next t → i.mnemonic ≠ .sta → sameMemory s t

/-! ## Control -/

/-- JMP: PC becomes the target, an Immediate index or the cell of a Direct operand (45_control.md sections 1 and 2; the
negative target is D23, a choice of the spec's own). -/
def Obligations.JmpSetsPcToTheTarget : Prop := JumpRule .jmp .jmp (fun _ => True) (fun _ => true)

/-- JZ and JNZ: PC becomes the target when Z is true, and when Z is false; the target is read first (45_control.md sections
1 and 2; D22 and D23, choices of the spec's own). -/
def Obligations.ZeroJumpsFollowZ : Prop :=
  JumpRule .jz .jz (fun _ => True) (fun s => s.flags.z) ∧ JumpRule .jnz .jnz (fun _ => True) (fun s => !s.flags.z)

/-- JC and JNC: PC becomes the target when C is true, and when C is false; the target is read first (45_control.md sections
1 and 2; D22 and D23, choices of the spec's own). -/
def Obligations.CarryJumpsFollowC : Prop :=
  JumpRule .jc .jc (fun _ => True) (fun s => s.flags.c) ∧ JumpRule .jnc .jnc (fun _ => True) (fun s => !s.flags.c)

/-- JV, JNV, JN and JNN under EXT_JUMPS = true: jumps gated by V, not V, N and not N (45_control.md section 3; D24, a choice
of the spec's own; that the parameter stands in State is the model's, notes/assumptions/8.md). -/
def Obligations.ExtendedJumpsFollowVAndN : Prop :=
  JumpRule .jv .jv (fun s => s.extJumps = true) (fun s => s.flags.v) ∧
  JumpRule .jnv .jnv (fun s => s.extJumps = true) (fun s => !s.flags.v) ∧
  JumpRule .jn .jn (fun s => s.extJumps = true) (fun s => s.flags.n) ∧
  JumpRule .jnn .jnn (fun s => s.extJumps = true) (fun s => !s.flags.n)

/-- JV, JNV, JN and JNN under EXT_JUMPS = false, the default: UnknownInstruction, whatever the operands (45_control.md
section 3; D24, a choice of the spec's own; that the parameter stands in State is the model's, notes/assumptions/8.md). -/
def Obligations.ExtendedJumpsAreUnknownByDefault : Prop :=
  ∀ (s : State) (ops : List Operand), s.extJumps = false →
    HaltsWith (.jv ops) s .unknownInstruction ∧ HaltsWith (.jnv ops) s .unknownInstruction ∧
    HaltsWith (.jn ops) s .unknownInstruction ∧ HaltsWith (.jnn ops) s .unknownInstruction

/-- A taken jump whose target is at or beyond the end of the program completes, and the next step is the normal halt of a
fetch, which changes PHASE alone: every class-J mnemonic that is implemented (JV, JNV, JN and JNN under EXT_JUMPS) and takes
its jump, with an Immediate target and with the target in the cell of a Direct (45_control.md section 5; the variant
EXT_JUMPS is D24, a choice of the spec's own, and stands in State by the model's, notes/assumptions/8.md). -/
def Obligations.JumpPastTheEndHaltsAtTheNextFetch : Prop :=
  ∀ (m : Mnemonic) (s : State), m.operandClass = .j → m.implemented s.extJumps = true → jumpTaken m s.flags = true →
    (∀ i : Int, inI64 i = true → (s.prog.length : Int) ≤ i → LeavesProgram (m.instr [.immediate i]) s i.toNat) ∧
    (∀ a : Int, s.validAddress a → s.prog.length ≤ (s.mem.get a.toNat).toNat →
      LeavesProgram (m.instr [.direct a]) s (s.mem.get a.toNat).toNat)

/-- HALT: PHASE becomes Halted and one execute entry is appended; PC, CYCLES and everything else are unchanged; with an
operand it is an error halt (45_control.md section 4; the unchanged PC is D25 and the operand error D16, choices of the
spec's own). -/
def Obligations.HaltStopsTheProcessor : Prop :=
  decode "HALT".toList = .ok (.halt []) ∧ ShownAs .halt .none 0 ∧
  (∀ s : State, ∃ t, exec (.halt []) s = .next t ∧ t.halted = true ∧ t.continues = false ∧
    t = { s with
          phase := .halted
          hist := s.hist ++ [⟨.execute, s.currentLine, s.regs, s.regs, some (s.mem, s.mem)⟩] }) ∧
  (∀ (s : State) (ops : List Operand), ops ≠ [] → HaltsWith (.halt ops) s .syntaxError)

/-- R176, NOP: CYCLES + 1 and PC + 1 and nothing else, one execute entry; an operand is a SyntaxError; the encoding; and
from the fetch of a NOP on, three steps count one cycle and append three history entries. -/
def Obligations.NopOnlyAdvances : Prop :=
  BareRule .nop .nop (fun a => a) ∧
  ∀ s : State, s.phase = .idle → s.prog[s.pc]? = some "NOP".toList →
    ∃ t u v, step s = .next t ∧ step t = .next u ∧ step u = .next v ∧ v.pc = s.pc + 1 ∧ v.cycles = s.cycles + 1 ∧
      v.phase = .idle ∧ v.hist.length = s.hist.length + 3

/-! ## Errors -/

/-- R193: AddressingModeMismatch, ERR = 3, is raised by an Immediate operand of a class-D instruction (a label among them,
which pass 2 turns into a decimal Immediate) and by a Direct operand of LDI (a hex token among them), and never by class J
or class N. -/
def Obligations.ModeMismatchIsRaisedByTheMode : Prop :=
  (∀ (i : Instr) (s : State) (v : Int), i.mnemonic.operandClass = .d → i.operands = [.immediate v] → inI64 v = true →
    HaltsWith i s .modeMismatch) ∧
  (∀ (s : State) (a : Int), HaltsWith (.ldi [.direct a]) s .modeMismatch) ∧
  (∀ (i : Instr) (s t : State), i.mnemonic.operandClass = .j ∨ i.mnemonic.operandClass = .n → exec i s = .next t →
    s.err ≠ .modeMismatch → t.err ≠ .modeMismatch) ∧
  (∀ (labels : LabelTable) (name : Line) (n : Nat), findLabel labels name = some n →
    parseOperand (substitute labels name) = .immediate (n : Int)) ∧
  (∀ (mark : Char) (digits : Line) (v : Nat), mark = 'x' ∨ mark = 'X' → digitsValue 16 hexDigit digits = some v →
    parseOperand ('0' :: mark :: digits) = .direct (v : Int)) ∧
  ErrCode.modeMismatch.code = 3

/-- Every error halt is precise: an execute phase that leaves a cause in ERR, of a core that had none, writes ERR, PHASE and
one history entry with equal snapshots, and nothing else (40_cycle.md section 4, 60_exceptions.md section 2; D26, a choice
of the spec's own). -/
def Obligations.ErrorHaltsArePrecise : Prop :=
  ∀ (i : Instr) (s t : State), exec i s = .next t → s.err = .none → t.err ≠ .none → ErrorHalted s t t.err

/-- The order in which one execute phase checks for its errors: an unimplemented mnemonic, the operand count, the token with
an unresolved label and the i64 range, the mode, the address (60_exceptions.md section 3; D18, a choice of the spec's own;
that EXT_JUMPS, which says what is implemented, stands in State is the model's, notes/assumptions/8.md).
Each clause holds whatever the later checks would find. -/
def Obligations.ErrorsAreReportedInOrder : Prop :=
  ∀ (s : State) (m : Mnemonic) (ops : List Line), s.phase = .decoded m.name ops → s.pc < s.prog.length →
    (m.implemented s.extJumps = false → ∃ t, step s = .next t ∧ ErrorHalted s t .unknownInstruction) ∧
    (m.implemented s.extJumps = true →
      (ops.length ≠ m.operandClass.roles.length → ∃ t, step s = .next t ∧ ErrorHalted s t .syntaxError) ∧
      (m.operandClass ≠ .n → ∀ token, ops = [token] → noSingleOperand [parseOperand token] = true →
        ∃ t, step s = .next t ∧ ErrorHalted s t .syntaxError) ∧
      (m.operandClass = .d → ∀ token i, ops = [token] → parseOperand token = .immediate i → inI64 i = true →
        ∃ t, step s = .next t ∧ ErrorHalted s t .modeMismatch) ∧
      (m.operandClass = .i → ∀ token a, ops = [token] → parseOperand token = .direct a →
        ∃ t, step s = .next t ∧ ErrorHalted s t .modeMismatch) ∧
      (m.operandClass = .d ∨ m.operandClass = .j → ∀ token a, ops = [token] → parseOperand token = .direct a →
        ¬ s.validAddress a → ∃ t, step s = .next t ∧ ErrorHalted s t .outOfBounds))

/-! ## What every step does and keeps -/

/-- Every step keeps the invariants of the reachable states: a halted core whenever ERR holds a cause, and a staged line that
is the line at PC (10_state.md section 14, marked derived there), and the canonical form of the memory, which is the model's
own choice (notes/assumptions/3.md). -/
def Obligations.EveryStepKeepsTheInvariants : Prop := ∀ s t : State, s.Inv → step s = .next t → t.Inv

/-- Every step keeps the counting property: as many fetch as decode as execute entries, but for the lead between a fetch and
its execute phase (40_cycle.md section 7; D31, a choice of the spec's own, says which phases append an entry). -/
def Obligations.EveryStepKeepsTheHistoryCounts : Prop := ∀ s t : State, s.Counted → step s = .next t → t.Counted

/-- From every state that meets the invariants (10_state.md section 14, and the memory's canonical form, the model's own,
notes/assumptions/3.md) a step answers a next state: the model's one fault is never reached (notes/assumptions/11.md), and no
instruction is refused. -/
def Obligations.NoStepStopsTheModel : Prop := ∀ s : State, s.Inv → ∃ t, step s = .next t

/-- What a step returns, by the phase before it: false in Halted, false for a fetch past the end and true for any other
fetch, true for a decode, and for an execute phase false exactly when it is HALT or leaves an error (40_cycle.md section 7,
a table the spec marks as derived). -/
def Obligations.StepReturnsWhetherExecutionContinues : Prop :=
  ∀ s t : State, s.err = .none ∨ s.phase = .halted → step s = .next t →
    (s.phase = .halted → t.continues = false) ∧
    (s.phase = .idle → (t.continues = true ↔ s.pc < s.prog.length)) ∧
    (∀ line, s.phase = .fetched line → t.continues = true ∧ ∃ m ops, t.phase = .decoded m ops) ∧
    (∀ mnem ops, s.phase = .decoded mnem ops →
      (t.continues = false ↔ (instrOfTokens mnem ops = .ok (.halt []) ∨ t.err ≠ .none)))

/-- No step writes the instruction store, the size of the memory or the parameter EXT_JUMPS, IRASM changes only in
the fetch phase, and IR only in the fetch and decode phases (10_state.md sections 7, 8 and 10, 20_memory.md section 8; D28 and D40, choices of the spec's
own; that EXT_JUMPS stands in State is the model's, notes/assumptions/8.md). -/
def Obligations.StepsLeaveTheProgramAlone : Prop :=
  ∀ s t : State, step s = .next t →
    t.prog = s.prog ∧ t.mem.size = s.mem.size ∧ t.extJumps = s.extJumps ∧
    (s.phase ≠ .idle → t.irasm = s.irasm) ∧
    ((∀ line, s.phase ≠ .fetched line) → s.phase ≠ .idle → t.ir = s.ir)

/-- CYCLES and PC, ACC, the flags and the cells change only in an execute phase that completes; there CYCLES goes up by one,
and HIST grows by one entry in every phase that is one, by none in a fetch past the end or in Halted (10_state.md sections 3
and 6, 60_exceptions.md section 7; D25, D26 and D31, choices of the spec's own). -/
def Obligations.OnlyCompletedExecutionsCount : Prop :=
  ∀ s t : State, step s = .next t →
    ((∃ m ops, s.phase = .decoded m ops) ∧ t.phase = .idle → t.cycles = s.cycles + 1) ∧
    (¬((∃ m ops, s.phase = .decoded m ops) ∧ t.phase = .idle) →
      t.cycles = s.cycles ∧ t.pc = s.pc ∧ t.acc = s.acc ∧ t.flags = s.flags ∧ t.mem = s.mem) ∧
    (s.phase = .halted ∨ (s.phase = .idle ∧ s.prog.length ≤ s.pc) → t.hist = s.hist) ∧
    (¬(s.phase = .halted ∨ (s.phase = .idle ∧ s.prog.length ≤ s.pc)) → ∃ e, t.hist = s.hist ++ [e])

/-! ## The host's operations -/

/-- `load` installs the lines and restarts the phase machine, and leaves MEM and its size as they are; the state it makes
meets the invariants if the memory is canonical, a form that is the model's own choice (notes/assumptions/3.md)
(70_reset_and_hazards.md section 1; D5 for the zeros and D34, choices of the spec's own). -/
def Obligations.LoadRestartsAndKeepsMemory : Prop :=
  ∀ (s : State) (lines : List Line),
    (s.load lines).prog = lines ∧ (s.load lines).acc = 0#16 ∧ (s.load lines).pc = 0 ∧
    (s.load lines).flags = ⟨false, false, false, false⟩ ∧ (s.load lines).cycles = 0 ∧ (s.load lines).hist = [] ∧
    (s.load lines).phase = .idle ∧ (s.load lines).halted = false ∧ (s.load lines).ir = none ∧
    (s.load lines).irasm = none ∧ (s.load lines).err = .none ∧ (s.load lines).mem = s.mem ∧
    (s.mem.wf = true → (s.load lines).Inv ∧ (s.load lines).Counted)

/-- `run(maxSteps)` makes at most `maxSteps` steps and ends in the state those steps lead to; it makes each of its steps in a
state that is not Halted, and it stops before the budget is used up only because the core has halted. So stepsExecuted is the
number of steps to the halt, the stopping one counted, or the budget if that is less; in Halted it is 0
(70_reset_and_hazards.md section 2; that the stopping call counts is D33, a choice of the spec's own). -/
def Obligations.RunStepsUntilHaltedOrBudget : Prop :=
  (∀ (budget n : Nat) (s t : State), run budget s = .next (n, t) →
    n ≤ budget ∧ Host.Core.run core n s = .next t ∧ (n < budget → t.phase = .halted) ∧
    ∀ k : Nat, k < n → ∃ u : State, Host.Core.run core k s = .next u ∧ u.phase ≠ .halted) ∧
  (∀ (budget : Nat) (s : State), s.phase = .halted → run budget s = .next (0, s))

/-- A run from a state that meets the invariants ends in one, with whatever budget (10_state.md section 14; an induction over
`EveryStepKeepsTheInvariants`). The canonical form of the memory among the invariants is the model's own choice
(notes/assumptions/3.md). -/
def Obligations.RunsAnswerAndKeepTheInvariants : Prop :=
  ∀ (budget : Nat) (s : State), s.Inv → ∃ n t, run budget s = .next (n, t) ∧ t.Inv

/-- The host's memory write sets one cell and refuses an address or a value out of range; its expansion keeps the old cells,
gives the new ones EXPAND_INIT, and refuses a size that does not grow or exceeds 65536 (70_reset_and_hazards.md section 2;
D3 and D34, choices of the spec's own). The clauses that the memory's canonical form is met before and kept after are the
model's own choice (notes/assumptions/3.md). -/
def Obligations.HostWritesAndExpandsMemory : Prop :=
  (∀ (s : State) (a v : Int), s.mem.wf = true → s.validAddress a → 0 ≤ v → v ≤ 65535 →
    ∃ t, s.hostWrite a v = some t ∧ t = { s with mem := t.mem } ∧ t.mem.wf = true ∧
      t.mem.read a = .ok (BitVec.ofNat 16 v.toNat) ∧ sameMemoryExcept s t a) ∧
  (∀ (s : State) (a v : Int), ¬(s.validAddress a ∧ 0 ≤ v ∧ v ≤ 65535) → s.hostWrite a v = none) ∧
  (∀ (s : State) (n : Nat), s.mem.wf = true → s.mem.size < n → n ≤ 65536 →
    ∃ t, s.hostExpand n = some t ∧ t = { s with mem := t.mem } ∧ t.mem.wf = true ∧ t.mem.size = n ∧
      (∀ a : Nat, a < s.mem.size → t.mem.read a = s.mem.read a) ∧
      (∀ a : Nat, s.mem.size ≤ a → a < n → t.mem.read a = .ok (Config.expandInit a))) ∧
  (∀ (s : State) (n : Nat), ¬(s.mem.size < n ∧ n ≤ 65536) → s.hostExpand n = none)

/-! ## Encodings and the assembler -/

/-- Decoding the compiled line of a well-formed instruction gives it back, with every operand at every value (30_encoding.md
sections 1 to 3; the operand grammar is D11 to D13, choices of the spec's own). -/
def Obligations.DecodeOfEncodeIsTheInstruction : Prop := ∀ i : Instr, i.wf = true → decode (encode i) = .ok i

/-- R72 and R74: the 16-bit display word has the opcode in bits[15:12] and the operand in bits[11:0], a Direct address, an
Immediate of 12 bits or 0; an Immediate that exceeds 12 bits, and it only, takes the 32-bit word, with the Immediate mod 2^16
in bits[31:16], the opcode in bits[15:12] and 0 in bits[11:0]. A Direct address outside 0..4095 and an opcode above 15 are
EncodingRangeErrors. (Choices of the spec's own: that a negative Immediate takes the 32-bit word and that a negative Direct is
an error, D30, and the opcode check, D29.) -/
def Obligations.DisplayWordsHaveTheirFields : Prop :=
  ∀ (opcodeOf : Mnemonic → Nat) (m : Mnemonic),
    (opcodeOf m ≤ 15 →
      (∃ w, displayEncode opcodeOf m .none = .ok (.w16 w) ∧
        (w.extractLsb' 12 4).toNat = opcodeOf m ∧ (w.extractLsb' 0 12).toNat = 0) ∧
      (∀ a : Nat, a ≤ 4095 → ∃ w, displayEncode opcodeOf m (.direct a) = .ok (.w16 w) ∧
        (w.extractLsb' 12 4).toNat = opcodeOf m ∧ (w.extractLsb' 0 12).toNat = a) ∧
      (∀ a : Int, a < 0 ∨ 4095 < a → displayEncode opcodeOf m (.direct a) = .error .encodingRangeError) ∧
      (∀ i : Nat, i ≤ 4095 → ∃ w, displayEncode opcodeOf m (.immediate i) = .ok (.w16 w) ∧
        (w.extractLsb' 12 4).toNat = opcodeOf m ∧ (w.extractLsb' 0 12).toNat = i) ∧
      (∀ i : Int, i < 0 ∨ 4095 < i → ∃ w, displayEncode opcodeOf m (.immediate i) = .ok (.w32 w) ∧
        ((w.extractLsb' 16 16).toNat : Int) = i % 65536 ∧ (w.extractLsb' 12 4).toNat = opcodeOf m ∧
        (w.extractLsb' 0 12).toNat = 0)) ∧
    (15 < opcodeOf m → ∀ o : DisplayOperand, displayEncode opcodeOf m o = .error .encodingRangeError)

/-- The display round trip: a 16-bit word whose bits[15:12] are the display opcode of a declared mnemonic decodes, and
encoding what it decodes to gives the word; any other 16-bit word does not decode (30_encoding.md section 4, an inference the
spec marks as derived; D29 and D30, choices of the spec's own). -/
def Obligations.DisplayWordsRoundTrip : Prop :=
  ∀ (opcodeOf : Mnemonic → Nat) (w : BitVec 16),
    ((∃ m, opcodeOf m = (w.extractLsb' 12 4).toNat) →
      ∃ m o, displayDecode16 opcodeOf w = some (m, o) ∧ displayEncode opcodeOf m o = .ok (.w16 w)) ∧
    ((∀ m, opcodeOf m ≠ (w.extractLsb' 12 4).toNat) → displayDecode16 opcodeOf w = none)

/-- The 32-bit display word of an Immediate decodes, under an injective DISPLAY_OPCODE, to the mnemonic and the Immediate
mod 2^16 (30_encoding.md section 4; D29 and D30, choices of the spec's own). -/
def Obligations.WideDisplayWordsDecode : Prop :=
  ∀ (opcodeOf : Mnemonic → Nat) (m : Mnemonic) (i : Int) (w : BitVec 32), Function.Injective opcodeOf →
    displayEncode opcodeOf m (.immediate i) = .ok (.w32 w) →
    displayDecode32 opcodeOf w = some (m, .immediate (i % 65536))

/-- A label name is never read as a number or an address, so no numeric token can match a label (30_encoding.md section 5;
the label grammar is D37, a choice of the spec's own). -/
def Obligations.LabelNamesAreNeverNumbers : Prop :=
  ∀ name : Line, isLabelName name = true → parseOperand name = .unresolved name

/-- A text with no `:` outside its comments assembles, with no labels, to the normalized form of each line on which an
instruction is left once its comment is dropped: the upper-cased mnemonic and the trimmed operand tokens, unchanged
(30_encoding.md section 5; D11, D12 and D38, choices of the spec's own). -/
def Obligations.TextWithoutLabelsAssembles : Prop :=
  ∀ text : Line, (∀ l ∈ sourceLines text, ':' ∉ dropComment l) →
    assemble text = .ok
      ((((sourceLines text).map fun l => trim (dropComment l)).filter fun s => !(s == [])).map fun s =>
        compiledLine (upper (splitWord s).1) (splitOperands (splitWord s).2), [])

/-- Assembly fails at line n, numbered from 1, exactly when line n is the first that has, outside its comment, a `:` whose
left part is no label name; it fails on nothing else (30_encoding.md section 5; D37 and D38, choices of the spec's own). -/
def Obligations.AssemblyFailsExactlyAtTheFirstMalformedLabel : Prop :=
  ∀ (text : Line) (n : Nat),
    assemble text = .error (.syntaxError n) ↔
      ∃ (k : Nat) (l : Line), n = k + 1 ∧ (sourceLines text)[k]? = some l ∧ MalformedLabel l ∧
        ∀ (j : Nat) (l' : Line), j < k → (sourceLines text)[j]? = some l' → ¬ MalformedLabel l'

/-- What assembly makes of a text that it accepts. The compiled lines are those of its instructions in order, each operand
token that is a label replaced with the decimal string of its index. A label designates the index of the next compiled line
after its last definition, the number of instructions on the lines before that one, and a name that no line defines is no
label (30_encoding.md section 5; D11 and D12, choices of the spec's own). -/
def Obligations.AssemblyTokenizesAndResolvesLabels : Prop :=
  ∀ (text : Line) (lines : List Line) (labels : LabelTable), assemble text = .ok (lines, labels) →
    lines = (instrTexts (sourceLines text)).map (compiledText labels) ∧
    (∀ (name l : Line) (k : Nat), (sourceLines text)[k]? = some l → labelOf l = some name →
      (∀ (j : Nat) (l' : Line), k < j → (sourceLines text)[j]? = some l' → labelOf l' ≠ some name) →
      findLabel labels name = some (instrTexts ((sourceLines text).take k)).length) ∧
    (∀ name : Line, (∀ l ∈ sourceLines text, labelOf l ≠ some name) → findLabel labels name = none)
end

