-- ==== Sys2Proof/Laws/Decode.lean ====
section
/-! SUPPORT. The small laws of the text functions: trimming, splitting, the mnemonic names, and numbers written out and
read back. -/

namespace Sys2Proof

/-! ### Trimming and splitting -/

theorem dropSpaces_of_head {s : Line} (h : ∀ c, s.head? = some c → isSpace c = false) : s.dropWhile isSpace = s := by
  cases s with
  | nil => rfl
  | cons c cs => simp [h c rfl]

/-- A string that neither begins nor ends with whitespace is its own trim. -/
theorem trim_of_ends {s : Line} (hh : ∀ c, s.head? = some c → isSpace c = false)
    (hl : ∀ c, s.getLast? = some c → isSpace c = false) : trim s = s := by
  unfold trim
  rw [dropSpaces_of_head hh, dropSpaces_of_head (s := s.reverse) (fun c hc => hl c (by simpa using hc)),
    List.reverse_reverse]

theorem trim_of_no_space {s : Line} (h : ∀ c ∈ s, isSpace c = false) : trim s = s :=
  trim_of_ends (fun c hc => h c (List.mem_of_mem_head? hc)) (fun c hc => h c (List.mem_of_getLast? hc))

@[simp] theorem trim_nil : trim [] = [] := rfl

/-- A separator that does not occur leaves one piece. -/
theorem splitAtChar_of_absent {sep : Char} {s : Line} (h : sep ∉ s) : splitAtChar sep s = [s] := by
  induction s with
  | nil => rfl
  | cons c cs ih =>
    rw [List.mem_cons, not_or] at h
    simp [splitAtChar, ih h.2, Ne.symm h.1]

theorem splitOperands_single {t : Line} (hn : t ≠ []) (hc : ',' ∉ t) : splitOperands t = [trim t] := by
  simp [splitOperands, hn, splitAtChar_of_absent hc]

theorem splitWord_alone {w : Line} (hw : ∀ c ∈ w, isSpace c = false) : splitWord w = (w, []) := by
  have h1 : w.takeWhile (fun c => !isSpace c) = w := List.takeWhile_eq_self_iff.2 (fun c hc => by simp [hw c hc])
  have h2 : w.dropWhile (fun c => !isSpace c) = [] := List.dropWhile_eq_nil_iff.2 (fun c hc => by simp [hw c hc])
  simp only [splitWord, h1, h2, trim_nil]

theorem splitWord_space {w t : Line} (hw : ∀ c ∈ w, isSpace c = false) (ht : trim (' ' :: t) = t) :
    splitWord (w ++ ' ' :: t) = (w, t) := by
  have hs : isSpace ' ' = true := rfl
  have h1 : (w ++ ' ' :: t).takeWhile (fun c => !isSpace c) = w := by
    rw [List.takeWhile_append_of_pos (fun c hc => by simp [hw c hc])]
    simp [hs]
  have h2 : (w ++ ' ' :: t).dropWhile (fun c => !isSpace c) = ' ' :: t := by
    rw [List.dropWhile_append_of_pos (fun c hc => by simp [hw c hc])]
    simp [hs]
  simp only [splitWord, h1, h2, ht]

theorem trim_space_cons {t : Line} (ht : ∀ c ∈ t, isSpace c = false) : trim (' ' :: t) = t := by
  have hs : isSpace ' ' = true := rfl
  have : trim (' ' :: t) = trim t := by simp [trim, hs]
  rw [this, trim_of_no_space ht]

/-! ### The mnemonics -/

theorem Mnemonic.mem_all (m : Mnemonic) : m ∈ Mnemonic.all := by cases m <;> decide

@[simp] theorem Mnemonic.ofName_name (m : Mnemonic) : Mnemonic.ofName m.name = some m := by cases m <;> decide

theorem Mnemonic.ofName_eq_some {s : Line} {m : Mnemonic} (h : Mnemonic.ofName s = some m) : m.name = s := by
  have := List.find?_some h
  simpa using this

theorem Mnemonic.upper_name (m : Mnemonic) : upper m.name = m.name := by cases m <;> rfl

theorem Mnemonic.name_no_space (m : Mnemonic) : ∀ c ∈ m.name, isSpace c = false := by
  cases m <;> simp [Mnemonic.name, isSpace]

theorem Mnemonic.name_ne_nil (m : Mnemonic) : m.name ≠ [] := by cases m <;> decide

theorem Mnemonic.index_injective : Function.Injective Mnemonic.index := by
  intro a b
  cases a <;> cases b <;> decide

/-- DISPLAY_OPCODE is injective, whatever it is (R73). -/
theorem displayOpcode_injective : Function.Injective displayOpcode :=
  fun _ _ h => Mnemonic.index_injective (Config.opcodeNumbering.injective h)

@[simp] theorem Mnemonic.instr_mnemonic (m : Mnemonic) (ops : List Operand) : (m.instr ops).mnemonic = m := by
  cases m <;> rfl

@[simp] theorem Mnemonic.instr_operands (m : Mnemonic) (ops : List Operand) : (m.instr ops).operands = ops := by
  cases m <;> rfl

theorem Instr.instr_of_parts (i : Instr) : i.mnemonic.instr i.operands = i := by cases i <;> rfl

/-! ### Numbers written out and read back -/

theorem decDigit_digitChar {d : Nat} (h : d < 10) : decDigit (digitChar d) = some d := by
  have : ∀ d : Fin 10, decDigit (digitChar d.val) = some d.val := by decide
  exact this ⟨d, h⟩

/-- A character that no rule of the operand grammar but the digits' gives a meaning to. -/
def isDigitChar (c : Char) : Bool := (decDigit c).isSome

theorem isDigitChar_digitChar {d : Nat} (h : d < 10) : isDigitChar (digitChar d) = true := by
  rw [isDigitChar, decDigit_digitChar h]; rfl

theorem isDigitChar_iff (c : Char) : isDigitChar c = true ↔ 48 ≤ c.toNat ∧ c.toNat ≤ 57 := by
  by_cases h : 48 ≤ c.toNat ∧ c.toNat ≤ 57 <;> simp [isDigitChar, decDigit, h]

theorem isDigitChar_ne {c d : Char} (hc : isDigitChar c = true) (hd : isDigitChar d = false) : c ≠ d := by
  rintro rfl; simp [hc] at hd

theorem isDigitChar_no_space {c : Char} (hc : isDigitChar c = true) : isSpace c = false := by
  have h1 : c ≠ ' ' := isDigitChar_ne hc (by decide)
  have h2 : c ≠ '\t' := isDigitChar_ne hc (by decide)
  simp [isSpace, h1, h2]

theorem renderDigits_digits (fuel n : Nat) (tail : Line) (ht : ∀ c ∈ tail, isDigitChar c = true) :
    ∀ c ∈ renderDigits fuel n tail, isDigitChar c = true := by
  induction fuel generalizing n tail with
  | zero => simpa [renderDigits] using ht
  | succ k ih =>
    simp only [renderDigits]
    split_ifs with h
    · intro c hc
      rcases List.mem_cons.1 hc with rfl | hc
      · exact isDigitChar_digitChar h
      · exact ht c hc
    · refine ih _ _ fun c hc => ?_
      rcases List.mem_cons.1 hc with rfl | hc
      · exact isDigitChar_digitChar (Nat.mod_lt _ (by decide))
      · exact ht c hc

theorem renderNat_digits (n : Nat) : ∀ c ∈ renderNat n, isDigitChar c = true :=
  renderDigits_digits _ _ _ (by simp)

theorem renderDigits_ne_nil (fuel n : Nat) (tail : Line) (h : 0 < fuel ∨ tail ≠ []) :
    renderDigits fuel n tail ≠ [] := by
  induction fuel generalizing n tail with
  | zero => simpa [renderDigits] using h
  | succ k ih =>
    simp only [renderDigits]
    split_ifs
    · simp
    · exact ih _ _ (.inr (by simp))

theorem renderNat_ne_nil (n : Nat) : renderNat n ≠ [] := renderDigits_ne_nil _ _ _ (.inl (Nat.succ_pos n))

/-- Reading what was written out gives the number back, whatever digits follow it. -/
theorem digitsFrom_renderDigits {fuel n : Nat} (tail : Line) (h : n < fuel) :
    digitsFrom 10 decDigit 0 (renderDigits fuel n tail) = digitsFrom 10 decDigit n tail := by
  induction fuel generalizing n tail with
  | zero => omega
  | succ k ih =>
    simp only [renderDigits]
    split_ifs with hn
    · simp [digitsFrom, decDigit_digitChar hn]
    · rw [ih _ (by omega)]
      simp only [digitsFrom, decDigit_digitChar (Nat.mod_lt n (by decide : 0 < 10))]
      congr 1
      omega

theorem digitsValue_renderNat (n : Nat) : digitsValue 10 decDigit (renderNat n) = some n := by
  rw [digitsValue, if_neg (renderNat_ne_nil n), renderNat, digitsFrom_renderDigits _ (Nat.lt_succ_self n)]
  rfl

/-- Digits alone carry no sign. -/
theorem takeSign_digits {s : Line} (h : ∀ c ∈ s, isDigitChar c = true) : takeSign s = (false, s) := by
  cases s with
  | nil => rfl
  | cons c cs =>
    have : c ≠ '-' := isDigitChar_ne (h c (by simp)) (by decide)
    simp [takeSign, this]

/-- Digits alone carry no `0x` and no `0b`. -/
theorem afterMark_digits {s : Line} (h : ∀ c ∈ s, isDigitChar c = true) :
    afterHexMark s = none ∧ afterBinMark s = none := by
  match s, h with
  | [], _ => exact ⟨rfl, rfl⟩
  | [_], _ => exact ⟨rfl, rfl⟩
  | c :: x :: rest, h =>
    have hx := h x (by simp)
    have h1 : x ≠ 'x' := isDigitChar_ne hx (by decide)
    have h2 : x ≠ 'X' := isDigitChar_ne hx (by decide)
    have h3 : x ≠ 'b' := isDigitChar_ne hx (by decide)
    have h4 : x ≠ 'B' := isDigitChar_ne hx (by decide)
    simp [afterHexMark, afterBinMark, h1, h2, h3, h4]

theorem parseUnsigned_renderNat (n : Nat) : parseUnsigned (renderNat n) = some n := by
  have h := afterMark_digits (renderNat_digits n)
  simp [parseUnsigned, h.1, h.2, digitsValue_renderNat]

theorem applySign_natAbs (i : Int) : applySign (decide (i < 0)) i.natAbs = i := by
  simp only [applySign, decide_eq_true_eq]
  split_ifs <;> omega

theorem renderInt_eq (i : Int) :
    renderInt i = (if i < 0 then ['-'] else []) ++ renderNat i.natAbs := by
  by_cases h : i < 0 <;> simp [renderInt, h]

theorem takeSign_renderInt (i : Int) : takeSign (renderInt i) = (decide (i < 0), renderNat i.natAbs) := by
  by_cases h : i < 0
  · simp [renderInt, h, takeSign]
  · simp [renderInt, h, takeSign_digits (renderNat_digits i.natAbs)]

theorem renderInt_ne_nil (i : Int) : renderInt i ≠ [] := by
  by_cases h : i < 0 <;> simp [renderInt, h, renderNat_ne_nil]

/-- The characters of a written-out integer are digits and `-`. -/
theorem renderInt_chars (i : Int) : ∀ c ∈ renderInt i, c = '-' ∨ isDigitChar c = true := by
  intro c hc
  rw [renderInt_eq, List.mem_append] at hc
  rcases hc with hc | hc
  · by_cases h : i < 0 <;> simp_all
  · exact .inr (renderNat_digits _ c hc)

theorem renderInt_avoids {i : Int} {d : Char} (hd : d ≠ '-') (hn : isDigitChar d = false) : d ∉ renderInt i := by
  intro h
  rcases renderInt_chars i d h with h | h
  · exact hd h
  · simp [hn] at h

theorem renderInt_no_space (i : Int) : ∀ c ∈ renderInt i, isSpace c = false := by
  intro c hc
  rcases renderInt_chars i c hc with rfl | h
  · decide
  · exact isDigitChar_no_space h

theorem parseNumber_renderInt (i : Int) : parseNumber (renderInt i) = some i := by
  simp only [parseNumber, trim_of_no_space (renderInt_no_space i), takeSign_renderInt, parseUnsigned_renderNat,
    Option.map_some, applySign_natAbs]

theorem parseConstant_renderInt (i : Int) : parseConstant (renderInt i) = some i := by
  simp only [parseConstant, takeSign_renderInt, digitsValue_renderNat, Option.map_some, applySign_natAbs]

theorem bracketed_brackets (s : Line) : bracketed ('[' :: (s ++ [']'])) = some s := by
  simp [bracketed, List.getLast?_append, List.getLast?_cons]

theorem bracketed_of_head {s : Line} (h : '[' ∉ s) : bracketed s = none := by
  cases s with
  | nil => rfl
  | cons c cs =>
    have : c ≠ '[' := fun e => h (by simp [e])
    simp [bracketed, this]

/-- A written-out integer is no `0x` token. -/
theorem afterHexMark_renderInt (i : Int) : afterHexMark (renderInt i) = none := by
  by_cases h : i < 0
  · cases hr : renderNat i.natAbs with
    | nil => exact absurd hr (renderNat_ne_nil _)
    | cons c cs => simp [renderInt, h, hr, afterHexMark]
  · simpa [renderInt, h] using (afterMark_digits (renderNat_digits i.natAbs)).1

/-- A Direct token reads back as the Direct it was written from. -/
theorem parseOperand_direct_token (a : Int) : parseOperand (Operand.direct a).token = .direct a := by
  have ht : trim (Operand.direct a).token = (Operand.direct a).token := by
    refine trim_of_no_space fun c hc => ?_
    simp only [Operand.token, List.mem_cons, List.mem_append, List.not_mem_nil, or_false] at hc
    rcases hc with rfl | hc | rfl
    · decide
    · exact renderInt_no_space a c hc
    · decide
  have hb : bracketed (Operand.direct a).token = some (renderInt a) := bracketed_brackets _
  simp only [parseOperand, ht, hb, directOperand, parseNumber_renderInt]
  simp [Operand.token]

/-- An Immediate token reads back as the Immediate it was written from. -/
theorem parseOperand_immediate_token (i : Int) : parseOperand (Operand.immediate i).token = .immediate i := by
  have ht : trim (renderInt i) = renderInt i := trim_of_no_space (renderInt_no_space i)
  have hb : bracketed (renderInt i) = none := bracketed_of_head (renderInt_avoids (by decide) (by decide))
  simp only [Operand.token, parseOperand, ht, hb, afterHexMark_renderInt, parseConstant_renderInt]
  simp [renderInt_ne_nil]

/-! ### The label table -/

namespace Machine

theorem findLabel_setLabel_same (t : LabelTable) (name : Line) (n : Nat) :
    findLabel (setLabel t name n) name = some n := by
  induction t with
  | nil => simp [setLabel, findLabel]
  | cons p rest ih =>
    obtain ⟨k, m⟩ := p
    by_cases h : k = name <;> simp [setLabel, findLabel, h, ih]

theorem findLabel_setLabel_other (t : LabelTable) {name other : Line} (n : Nat) (h : other ≠ name) :
    findLabel (setLabel t name n) other = findLabel t other := by
  induction t with
  | nil => simp [setLabel, findLabel, Ne.symm h]
  | cons p rest ih =>
    obtain ⟨k, m⟩ := p
    by_cases hk : k = name
    · subst hk; simp [setLabel, findLabel, Ne.symm h]
    · rw [setLabel, if_neg hk, findLabel, findLabel, ih]

end Machine

end Sys2Proof
end

