-- ==== Sys2Proof/Laws/Assembler.lean ====
section
/-! SUPPORT. What pass 1 makes of one source line, said once (R81, R82): every proof about `assemble` is an induction over
`Pass1.line_cases`. -/

namespace Sys2Proof.Machine

theorem splitLabel_eq_none {s : Line} : splitLabel s = none ↔ ':' ∉ s := by
  simp [splitLabel]

theorem splitLabel_eq_some {s before after : Line} :
    splitLabel s = some (before, after) ↔ s = before ++ ':' :: after ∧ ':' ∉ before := by
  constructor
  · intro h
    simp only [splitLabel] at h
    split_ifs at h with hc
    simp only [Option.some.injEq, Prod.mk.injEq] at h
    obtain ⟨rfl, rfl⟩ := h
    have hb : ':' ∉ s.takeWhile (fun c => c != ':') := fun hm => by simpa using List.mem_takeWhile_imp hm
    refine ⟨?_, hb⟩
    have hs := List.takeWhile_append_dropWhile (p := fun c => c != ':') (l := s)
    cases hd : s.dropWhile (fun c => c != ':') with
    | nil =>
      rw [hd, List.append_nil] at hs
      exact absurd (by simpa using hc) (hs ▸ hb)
    | cons c cs =>
      have hh := List.head?_dropWhile_not (fun c : Char => c != ':') s
      rw [hd] at hh
      have hcc : c = ':' := by simpa using hh
      rw [hd, hcc] at hs
      simpa using hs.symm
  · rintro ⟨rfl, hb⟩
    have hn : ∀ c ∈ before, (c != ':') = true := fun c hc => by
      simpa using fun e : c = ':' => hb (e ▸ hc)
    simp [splitLabel, List.takeWhile_append_of_pos hn, List.dropWhile_append_of_pos hn]

/-- A line is malformed exactly when the label it defines is no label name. -/
theorem malformedLabel_iff (l : Line) : MalformedLabel l ↔ ∃ name, labelOf l = some name ∧ isLabelName name = false := by
  constructor
  · rintro ⟨before, after, hs, hb, hn⟩
    exact ⟨_, by rw [labelOf, splitLabel_eq_some.2 ⟨hs, hb⟩]; rfl, hn⟩
  · rintro ⟨name, hl, hn⟩
    obtain ⟨⟨before, after⟩, hs, rfl⟩ := Option.map_eq_some_iff.1 hl
    obtain ⟨he, hb⟩ := splitLabel_eq_some.1 hs
    exact ⟨before, after, he, hb, hn⟩

/-- An instruction's text as pass 1 tokenizes it. -/
def tokenized (s : Line) : SourceInstr := ((splitWord s).1, splitOperands (splitWord s).2)

theorem pass2_tokenized (labels : LabelTable) (s : Line) : pass2 labels (tokenized s) = compiledText labels s := rfl

@[simp] theorem addInstr_out (p : Pass1) (s : Line) :
    (p.addInstr s).out = p.out ++ (if s = [] then [] else [tokenized s]) := by
  by_cases h : s = [] <;> simp [Pass1.addInstr, h, tokenized]

@[simp] theorem addInstr_labels (p : Pass1) (s : Line) : (p.addInstr s).labels = p.labels := by
  by_cases h : s = [] <;> simp [Pass1.addInstr, h]

/-- The label table after a line: the label it defines, if any, at the index of the next compiled line. -/
def labelsAfter (p : Pass1) (l : Line) : LabelTable :=
  match labelOf l with
  | some name => setLabel p.labels name p.out.length
  | none => p.labels

/-- Everything pass 1 can do with one source line. -/
theorem Pass1.line_cases (p : Pass1) (number : Nat) (l : Line) :
    (MalformedLabel l ∧ p.line number l = .error (.syntaxError number)) ∨
    (¬ MalformedLabel l ∧
      p.line number l = .ok ((Pass1.mk p.out (labelsAfter p l)).addInstr (instrText l))) := by
  cases hs : splitLabel (trim (dropComment l)) with
  | none =>
    refine .inr ⟨?_, ?_⟩
    · rw [malformedLabel_iff]; simp [labelOf, hs]
    · simp [Pass1.line, hs, labelsAfter, labelOf, instrText]
  | some q =>
    obtain ⟨before, after⟩ := q
    have hl : labelOf l = some (trim before) := by simp [labelOf, hs]
    cases hn : isLabelName (trim before) with
    | false => exact .inl ⟨(malformedLabel_iff l).2 ⟨_, hl, hn⟩, by simp [Pass1.line, hs, hn]⟩
    | true =>
      refine .inr ⟨?_, ?_⟩
      · rw [malformedLabel_iff]; simp [hl, hn]
      · simp [Pass1.line, hs, hn, labelsAfter, hl, instrText]

theorem instrTexts_cons (l : Line) (ls : List Line) :
    instrTexts (l :: ls) = (if instrText l = [] then [] else [instrText l]) ++ instrTexts ls := by
  by_cases h : instrText l = [] <;> simp [instrTexts, h]

end Sys2Proof.Machine
end

