-- ==== Sys2Proof/Laws/Flags.lean ====
section
/-! SUPPORT. The flag rule, one flag at a time (R110), and flags as data. -/

namespace Sys2Proof.Machine

theorem updateFlags_z_iff (r : Int) (op : FlagOp) : (updateFlags r op).z = true ↔ r = 0 := by simp [updateFlags]

theorem updateFlags_n_iff (r : Int) (op : FlagOp) : (updateFlags r op).n = true ↔ r < 0 := by simp [updateFlags]

theorem updateFlags_v_iff (r : Int) (op : FlagOp) : (updateFlags r op).v = true ↔ r > 32767 ∨ r < -32768 := by
  simp [updateFlags]

theorem updateFlags_c_add (r : Int) : (updateFlags r .add).c = true ↔ r < 0 := by simp [updateFlags]

theorem updateFlags_c_sub (r : Int) : (updateFlags r .sub).c = true ↔ r > 0 := by simp [updateFlags]

theorem flags_eq {f g : Flags} (hz : f.z = g.z) (hc : f.c = g.c) (hv : f.v = g.v) (hn : f.n = g.n) : f = g := by
  cases f; cases g; simp_all

end Sys2Proof.Machine
end

