-- ==== Sys2Proof/Laws/Memory.lean ====
section
/-! SUPPORT. The laws of the data memory: read after write, and the canonical form, which every operation keeps and which
makes equal memories equal data. -/

namespace Sys2Proof.Machine

/-! ### The list of cells -/

theorem cellsOrdered_cons (hi lo a : Nat) (w : Word) (rest : List MemCell) :
    cellsOrdered hi lo ((a, w) :: rest) = true ↔
      lo ≤ a ∧ a < hi ∧ w ≠ Memory.filler ∧ cellsOrdered hi (a + 1) rest = true := by
  simp [cellsOrdered, and_assoc]

/-- A list ordered from `lo` on is ordered from any lower bound on, and below any higher one. -/
theorem cellsOrdered_mono {hi hi' lo lo' : Nat} {cs : List MemCell} (h : cellsOrdered hi lo cs = true)
    (hl : lo' ≤ lo) (hh : hi ≤ hi') : cellsOrdered hi' lo' cs = true := by
  induction cs generalizing lo lo' with
  | nil => rfl
  | cons c rest ih =>
    obtain ⟨a, w⟩ := c
    rw [cellsOrdered_cons] at h ⊢
    exact ⟨by omega, by omega, h.2.2.1, ih h.2.2.2 (Nat.le_refl _)⟩

/-- An index below the bound of an ordered list is not listed. -/
theorem lookup_below {hi lo a : Nat} {cs : List MemCell} (h : cellsOrdered hi lo cs = true) (ha : a < lo) :
    lookupCell cs a = Memory.filler := by
  induction cs generalizing lo with
  | nil => rfl
  | cons c rest ih =>
    obtain ⟨b, w⟩ := c
    rw [cellsOrdered_cons] at h
    rw [lookupCell, if_neg (by omega)]
    exact ih h.2.2.2 (by omega)

/-- An index at or above the upper end of an ordered list is not listed. -/
theorem lookup_above {hi lo a : Nat} {cs : List MemCell} (h : cellsOrdered hi lo cs = true) (ha : hi ≤ a) :
    lookupCell cs a = Memory.filler := by
  induction cs generalizing lo with
  | nil => rfl
  | cons c rest ih =>
    obtain ⟨b, w⟩ := c
    rw [cellsOrdered_cons] at h
    rw [lookupCell, if_neg (by omega)]
    exact ih h.2.2.2

theorem lookup_put_other {cs : List MemCell} {a b : Nat} (v : Word) (h : b ≠ a) :
    lookupCell (putCell cs a v) b = lookupCell cs b := by
  induction cs with
  | nil =>
    by_cases hv : v = Memory.filler
    · simp [putCell, hv]
    · simp [putCell, hv, lookupCell, Ne.symm h]
  | cons c rest ih =>
    obtain ⟨k, w⟩ := c
    simp only [putCell]
    split_ifs with h1 h2 h3 h4
    · rfl
    · simp [lookupCell, Ne.symm h]
    · subst h3; simp [lookupCell, Ne.symm h]
    · subst h3; simp [lookupCell, Ne.symm h]
    · simp only [lookupCell, ih]

theorem lookup_put_same {hi lo a : Nat} {cs : List MemCell} (v : Word) (h : cellsOrdered hi lo cs = true) :
    lookupCell (putCell cs a v) a = v := by
  induction cs generalizing lo with
  | nil =>
    by_cases hv : v = Memory.filler
    · simp [putCell, hv, lookupCell]
    · simp [putCell, hv, lookupCell]
  | cons c rest ih =>
    obtain ⟨k, w⟩ := c
    rw [cellsOrdered_cons] at h
    simp only [putCell]
    split_ifs with h1 h2 h3 h4
    · rw [lookupCell, if_neg (by omega), h2]
      exact lookup_below h.2.2.2 (by omega)
    · simp [lookupCell]
    · subst h3; rw [h4]; exact lookup_below h.2.2.2 (by omega)
    · simp [lookupCell]
    · rw [lookupCell, if_neg (fun e => h3 e.symm)]; exact ih h.2.2.2

theorem cellsOrdered_put {hi lo a : Nat} {cs : List MemCell} (v : Word) (h : cellsOrdered hi lo cs = true)
    (hl : lo ≤ a) (hh : a < hi) : cellsOrdered hi lo (putCell cs a v) = true := by
  induction cs generalizing lo with
  | nil =>
    by_cases hv : v = Memory.filler
    · simp [putCell, hv, cellsOrdered]
    · simp only [putCell, if_neg hv]
      exact (cellsOrdered_cons ..).2 ⟨hl, hh, hv, rfl⟩
  | cons c rest ih =>
    obtain ⟨k, w⟩ := c
    have hc := (cellsOrdered_cons ..).1 h
    simp only [putCell]
    split_ifs with h1 h2 h3 h4
    · exact h
    · exact (cellsOrdered_cons ..).2 ⟨hl, hh, h2, (cellsOrdered_cons ..).2 ⟨by omega, hc.2.1, hc.2.2⟩⟩
    · exact cellsOrdered_mono hc.2.2.2 (by omega) (Nat.le_refl _)
    · subst h3; exact (cellsOrdered_cons ..).2 ⟨hl, hh, h4, hc.2.2.2⟩
    · exact (cellsOrdered_cons ..).2 ⟨hc.1, hc.2.1, hc.2.2.1, ih hc.2.2.2 (by omega)⟩

theorem cellsOrdered_fill (f : Nat → Word) (start count : Nat) :
    cellsOrdered (start + count) start (fillCells f start count) = true := by
  induction count generalizing start with
  | zero => rfl
  | succ n ih =>
    have h := ih (start + 1)
    simp only [fillCells]
    split_ifs with hf
    · exact cellsOrdered_mono h (by omega) (by omega)
    · exact (cellsOrdered_cons ..).2 ⟨Nat.le_refl _, by omega, hf, cellsOrdered_mono h (Nat.le_refl _) (by omega)⟩

theorem lookup_fill (f : Nat → Word) (start count a : Nat) (hl : start ≤ a) (hh : a < start + count) :
    lookupCell (fillCells f start count) a = f a := by
  induction count generalizing start with
  | zero => omega
  | succ n ih =>
    simp only [fillCells]
    by_cases h : a = start
    · subst h
      split_ifs with hf
      · rw [hf]; exact lookup_below (cellsOrdered_fill f (a + 1) n) (by omega)
      · simp [lookupCell]
    · have := ih (start + 1) (by omega) (by omega)
      split_ifs with hf
      · exact this
      · rw [lookupCell, if_neg (fun e => h e.symm)]; exact this

theorem cellsOrdered_append {mid hi lo : Nat} {cs ds : List MemCell} (hc : cellsOrdered mid lo cs = true)
    (hd : cellsOrdered hi mid ds = true) (hm : mid ≤ hi) (hl : lo ≤ mid) :
    cellsOrdered hi lo (cs ++ ds) = true := by
  induction cs generalizing lo with
  | nil => exact cellsOrdered_mono hd hl (Nat.le_refl _)
  | cons c rest ih =>
    obtain ⟨k, w⟩ := c
    rw [cellsOrdered_cons] at hc
    rw [List.cons_append, cellsOrdered_cons]
    exact ⟨hc.1, by omega, hc.2.2.1, ih hc.2.2.2 (by omega)⟩

theorem lookup_append_low {mid hi lo a : Nat} {cs ds : List MemCell} (hd : cellsOrdered hi mid ds = true)
    (hc : cellsOrdered mid lo cs = true) (ha : a < mid) : lookupCell (cs ++ ds) a = lookupCell cs a := by
  induction cs generalizing lo with
  | nil => exact lookup_below hd ha
  | cons c rest ih =>
    obtain ⟨k, w⟩ := c
    rw [cellsOrdered_cons] at hc
    simp only [List.cons_append, lookupCell, ih hc.2.2.2]

theorem lookup_append_high {mid lo a : Nat} {cs ds : List MemCell} (hc : cellsOrdered mid lo cs = true)
    (ha : mid ≤ a) : lookupCell (cs ++ ds) a = lookupCell ds a := by
  induction cs generalizing lo with
  | nil => rfl
  | cons c rest ih =>
    obtain ⟨k, w⟩ := c
    rw [cellsOrdered_cons] at hc
    rw [List.cons_append, lookupCell, if_neg (by omega)]
    exact ih hc.2.2.2

/-- Ordered lists that give every index the same value are equal. -/
theorem cells_ext {hi lo : Nat} {cs ds : List MemCell} (hc : cellsOrdered hi lo cs = true)
    (hd : cellsOrdered hi lo ds = true) (h : ∀ a, lookupCell cs a = lookupCell ds a) : cs = ds := by
  induction cs generalizing lo ds with
  | nil =>
    cases ds with
    | nil => rfl
    | cons d rest =>
      obtain ⟨k, w⟩ := d
      have := h k
      rw [cellsOrdered_cons] at hd
      simp only [lookupCell, if_true] at this
      exact absurd this.symm hd.2.2.1
  | cons c rest ih =>
    obtain ⟨k, w⟩ := c
    cases ds with
    | nil =>
      have := h k
      rw [cellsOrdered_cons] at hc
      simp only [lookupCell, if_true] at this
      exact absurd this hc.2.2.1
    | cons d rest' =>
      obtain ⟨k', w'⟩ := d
      have hc' := (cellsOrdered_cons ..).1 hc
      have hd' := (cellsOrdered_cons ..).1 hd
      have hk : k = k' := by
        rcases Nat.lt_trichotomy k k' with hlt | heq | hgt
        · have e := h k
          rw [lookupCell, if_pos rfl, lookupCell, if_neg (by omega), lookup_below hd'.2.2.2 (by omega)] at e
          exact absurd e hc'.2.2.1
        · exact heq
        · have e := h k'
          rw [lookupCell, if_neg (by omega), lookup_below hc'.2.2.2 (by omega), lookupCell, if_pos rfl] at e
          exact absurd e.symm hd'.2.2.1
      subst hk
      have hw : w = w' := by simpa [lookupCell] using h k
      subst hw
      have hrest : rest = rest' := by
        refine ih hc'.2.2.2 hd'.2.2.2 fun a => ?_
        by_cases ha : k = a
        · subst ha; rw [lookup_below hc'.2.2.2 (by omega), lookup_below hd'.2.2.2 (by omega)]
        · simpa [lookupCell, ha] using h a
      rw [hrest]

/-! ### The memory -/

theorem Memory.wf_iff (m : Memory) :
    m.wf = true ↔ 1 ≤ m.size ∧ m.size ≤ Config.maxCells ∧ cellsOrdered m.size 0 m.cells = true := by
  simp [Memory.wf, and_assoc]

@[simp] theorem Memory.set_size (m : Memory) (a : Nat) (v : Word) : (m.set a v).size = m.size := rfl

theorem Memory.get_set_same {m : Memory} (h : m.wf = true) (a : Nat) (v : Word) : (m.set a v).get a = v :=
  lookup_put_same v ((Memory.wf_iff m).1 h).2.2

theorem Memory.get_set_other (m : Memory) {a b : Nat} (v : Word) (h : b ≠ a) : (m.set a v).get b = m.get b :=
  lookup_put_other v h

theorem Memory.set_keeps_wf {m : Memory} (h : m.wf = true) {a : Nat} (ha : a < m.size) (v : Word) :
    (m.set a v).wf = true := by
  rw [Memory.wf_iff] at h ⊢
  exact ⟨h.1, h.2.1, cellsOrdered_put v h.2.2 (Nat.zero_le _) ha⟩

theorem Memory.ofContents_wf {n : Nat} (h1 : 1 ≤ n) (h2 : n ≤ Config.maxCells) (f : Nat → Word) :
    (Memory.ofContents n f).wf = true := by
  rw [Memory.wf_iff]
  exact ⟨h1, h2, cellsOrdered_mono (cellsOrdered_fill f 0 n) (Nat.le_refl _) (by simp [Memory.ofContents])⟩

theorem Memory.get_ofContents {n a : Nat} (h : a < n) (f : Nat → Word) : (Memory.ofContents n f).get a = f a :=
  lookup_fill f 0 n a (Nat.zero_le _) (by omega)

theorem Memory.expand_keeps_wf {m : Memory} (h : m.wf = true) {n : Nat} (hn : m.size ≤ n)
    (hm : n ≤ Config.maxCells) (f : Nat → Word) : (m.expand f n).wf = true := by
  rw [Memory.wf_iff] at h ⊢
  refine ⟨by simp only [Memory.expand]; omega, hm, ?_⟩
  exact cellsOrdered_append h.2.2
    (cellsOrdered_mono (cellsOrdered_fill f m.size (n - m.size)) (Nat.le_refl _) (by simp only [Memory.expand]; omega))
    hn (Nat.zero_le _)

theorem Memory.get_expand_old {m : Memory} (h : m.wf = true) {n a : Nat} (ha : a < m.size) (f : Nat → Word) :
    (m.expand f n).get a = m.get a :=
  lookup_append_low (cellsOrdered_fill f m.size (n - m.size)) ((Memory.wf_iff m).1 h).2.2 ha

theorem Memory.get_expand_new {m : Memory} (h : m.wf = true) {n a : Nat} (hl : m.size ≤ a) (hn : a < n)
    (f : Nat → Word) : (m.expand f n).get a = f a := by
  rw [Memory.get, Memory.expand, lookup_append_high ((Memory.wf_iff m).1 h).2.2 hl]
  exact lookup_fill f m.size (n - m.size) a hl (by omega)

/-- Equal memories are equal data: canonical memories of one size with the same cells are equal. -/
theorem Memory.ext_of_get {m k : Memory} (hm : m.wf = true) (hk : k.wf = true) (hs : m.size = k.size)
    (h : ∀ a, a < m.size → m.get a = k.get a) : m = k := by
  have hm' := ((Memory.wf_iff m).1 hm).2.2
  have hk' := ((Memory.wf_iff k).1 hk).2.2
  rw [← hs] at hk'
  have hc : m.cells = k.cells := by
    refine cells_ext hm' hk' fun a => ?_
    by_cases ha : a < m.size
    · exact h a ha
    · rw [lookup_above hm' (by omega), lookup_above hk' (by omega)]
  cases m; cases k
  simp_all

/-! ### The memory port -/

theorem Memory.read_of_valid {m : Memory} {a : Int} (h : 0 ≤ a ∧ a < (m.size : Int)) :
    m.read a = .ok (m.get a.toNat) := if_pos h

theorem Memory.read_of_invalid {m : Memory} {a : Int} (h : ¬(0 ≤ a ∧ a < (m.size : Int))) :
    m.read a = .error .outOfBounds := if_neg h

theorem Memory.write_of_valid {m : Memory} {a : Int} (h : 0 ≤ a ∧ a < (m.size : Int)) (v : Word) :
    m.write a v = .ok (m.set a.toNat v) := if_pos h

theorem Memory.write_of_invalid {m : Memory} {a : Int} (h : ¬(0 ≤ a ∧ a < (m.size : Int))) (v : Word) :
    m.write a v = .error .outOfBounds := if_neg h

/-- What a write that succeeds does: the address is valid and one cell is replaced. -/
theorem Memory.write_ok {m k : Memory} {a : Int} {v : Word} (h : m.write a v = .ok k) :
    (0 ≤ a ∧ a < (m.size : Int)) ∧ k = m.set a.toNat v := by
  by_cases hv : 0 ≤ a ∧ a < (m.size : Int)
  · rw [Memory.write_of_valid hv] at h
    exact ⟨hv, (Except.ok.inj h).symm⟩
  · rw [Memory.write_of_invalid hv] at h
    cases h

theorem Memory.write_keeps_wf {m k : Memory} {a : Int} {v : Word} (hm : m.wf = true) (h : m.write a v = .ok k) :
    k.wf = true := by
  obtain ⟨hv, rfl⟩ := Memory.write_ok h
  exact Memory.set_keeps_wf hm (by omega) v

theorem Memory.read_set_other (m : Memory) {a : Nat} {b : Int} (v : Word) (h : b ≠ (a : Int)) :
    (m.set a v).read b = m.read b := by
  by_cases hb : 0 ≤ b ∧ b < (m.size : Int)
  · rw [Memory.read_of_valid hb, Memory.read_of_valid (by simpa using hb), Memory.get_set_other]
    omega
  · rw [Memory.read_of_invalid hb, Memory.read_of_invalid (by simpa using hb)]

end Sys2Proof.Machine
end

