-- ==== Sys2Proof/Laws/Operands.lean ====
section
/-! SUPPORT. What operand resolution and the reads of the memory port can answer. -/

namespace Sys2Proof.Machine

@[simp] theorem resolveDirect_direct (a : Int) : resolveDirect [.direct a] = .ok a := rfl

@[simp] theorem resolveNone_nil : resolveNone [] = .ok () := rfl

theorem resolveImmediate_immediate {i : Int} (h : inI64 i = true) : resolveImmediate [.immediate i] = .ok i := by
  simp [resolveImmediate, resolveOne, h, Except.bind]

@[simp] theorem resolveOne_direct (a : Int) : resolveOne [.direct a] = .ok (.direct a) := rfl

theorem resolveOne_immediate {i : Int} (h : inI64 i = true) : resolveOne [.immediate i] = .ok (.immediate i) := by
  simp [resolveOne, h]

/-- Every list of operands that `resolveOne` accepts. -/
theorem resolveOne_ok {ops : List Operand} {o : Resolved} (h : resolveOne ops = .ok o) :
    (∃ a, ops = [.direct a] ∧ o = .direct a) ∨ (∃ i, ops = [.immediate i] ∧ inI64 i = true ∧ o = .immediate i) := by
  match ops, h with
  | [.direct a], h => exact .inl ⟨a, rfl, (Except.ok.inj h).symm⟩
  | [.immediate i], h =>
    by_cases hi : inI64 i = true
    · rw [resolveOne_immediate hi] at h
      exact .inr ⟨i, rfl, hi, (Except.ok.inj h).symm⟩
    · simp [resolveOne, hi] at h
  | [.unresolved _], h => cases h
  | [.malformed _], h => cases h
  | [], h => cases h
  | _ :: _ :: _, h => simp [resolveOne] at h

/-- The one error before the class's mode check is SyntaxError. -/
theorem resolveOne_error {ops : List Operand} {e : ErrCode} (h : resolveOne ops = .error e) : e = .syntaxError := by
  match ops, h with
  | [.direct a], h => cases h
  | [.immediate i], h =>
    by_cases hi : inI64 i = true
    · simp [resolveOne, hi] at h
    · simpa [resolveOne, hi, eq_comm] using h
  | [.unresolved _], h => exact (Except.error.inj h).symm
  | [.malformed _], h => exact (Except.error.inj h).symm
  | [], h => exact (Except.error.inj h).symm
  | _ :: _ :: _, h => simpa [resolveOne, eq_comm] using h

theorem resolveDirect_ok {ops : List Operand} {a : Int} (h : resolveDirect ops = .ok a) : ops = [.direct a] := by
  cases hr : resolveOne ops with
  | error e => simp [resolveDirect, hr, Except.bind] at h
  | ok o =>
    rcases resolveOne_ok hr with ⟨b, rfl, rfl⟩ | ⟨i, rfl, hi, rfl⟩
    · simpa using h
    · simp [resolveDirect, hr, Except.bind] at h

theorem resolveImmediate_ok {ops : List Operand} {i : Int} (h : resolveImmediate ops = .ok i) :
    ops = [.immediate i] ∧ inI64 i = true := by
  cases hr : resolveOne ops with
  | error e => simp [resolveImmediate, hr, Except.bind] at h
  | ok o =>
    rcases resolveOne_ok hr with ⟨b, rfl, rfl⟩ | ⟨j, rfl, hj, rfl⟩
    · simp [resolveImmediate, Except.bind] at h
    · rw [resolveImmediate_immediate hj] at h
      cases h
      exact ⟨rfl, hj⟩

theorem resolveNone_ok {ops : List Operand} {u : Unit} (h : resolveNone ops = .ok u) : ops = [] := by
  cases ops with
  | nil => rfl
  | cons o rest => cases h

theorem readOperand_valid {m : Memory} {a : Int} (h : 0 ≤ a ∧ a < (m.size : Int)) :
    readOperand [.direct a] m = .ok (m.get a.toNat) := by
  simp [readOperand, Except.bind, Memory.read_of_valid h]

theorem readOperand_invalid {m : Memory} {a : Int} (h : ¬(0 ≤ a ∧ a < (m.size : Int))) :
    readOperand [.direct a] m = .error .outOfBounds := by
  simp [readOperand, Except.bind, Memory.read_of_invalid h]

/-- A class-D read that succeeds: one Direct operand, valid, and the value is its cell's. -/
theorem readOperand_ok {ops : List Operand} {m : Memory} {w : Word} (h : readOperand ops m = .ok w) :
    ∃ a : Int, ops = [.direct a] ∧ (0 ≤ a ∧ a < (m.size : Int)) ∧ w = m.get a.toNat := by
  cases hr : resolveDirect ops with
  | error e => simp [readOperand, hr, Except.bind] at h
  | ok a =>
    obtain rfl := resolveDirect_ok hr
    by_cases hv : 0 ≤ a ∧ a < (m.size : Int)
    · rw [readOperand_valid hv] at h
      exact ⟨a, rfl, hv, (Except.ok.inj h).symm⟩
    · rw [readOperand_invalid hv] at h
      cases h

theorem readTarget_immediate {i : Int} (h : inI64 i = true) (m : Memory) : readTarget [.immediate i] m = .ok i := by
  simp [readTarget, resolveOne_immediate h, Except.bind, targetOf]

theorem readTarget_direct {m : Memory} {a : Int} (h : 0 ≤ a ∧ a < (m.size : Int)) :
    readTarget [.direct a] m = .ok ((m.get a.toNat).toNat : Int) := by
  simp [readTarget, Except.bind, targetOf, Memory.read_of_valid h, Except.map]

theorem readTarget_direct_invalid {m : Memory} {a : Int} (h : ¬(0 ≤ a ∧ a < (m.size : Int))) :
    readTarget [.direct a] m = .error .outOfBounds := by
  simp [readTarget, Except.bind, targetOf, Memory.read_of_invalid h, Except.map]

/-! ### The errors: each is one of the five causes, never NONE -/

theorem resolveDirect_error {ops : List Operand} {e : ErrCode} (h : resolveDirect ops = .error e) :
    e = .syntaxError ∨ e = .modeMismatch := by
  cases hr : resolveOne ops with
  | error e' =>
    simp only [resolveDirect, hr, Except.bind, Except.error.injEq] at h
    exact .inl (h ▸ resolveOne_error hr)
  | ok o => cases o <;> simp_all [resolveDirect, Except.bind]

theorem resolveImmediate_error {ops : List Operand} {e : ErrCode} (h : resolveImmediate ops = .error e) :
    e = .syntaxError ∨ e = .modeMismatch := by
  cases hr : resolveOne ops with
  | error e' =>
    simp only [resolveImmediate, hr, Except.bind, Except.error.injEq] at h
    exact .inl (h ▸ resolveOne_error hr)
  | ok o => cases o <;> simp_all [resolveImmediate, Except.bind]

theorem Memory.read_error {m : Memory} {a : Int} {e : ErrCode} (h : m.read a = .error e) : e = .outOfBounds := by
  by_cases hv : 0 ≤ a ∧ a < (m.size : Int)
  · rw [Memory.read_of_valid hv] at h; cases h
  · rw [Memory.read_of_invalid hv] at h; exact (Except.error.inj h).symm

theorem Memory.write_error {m : Memory} {a : Int} {v : Word} {e : ErrCode} (h : m.write a v = .error e) :
    e = .outOfBounds := by
  by_cases hv : 0 ≤ a ∧ a < (m.size : Int)
  · rw [Memory.write_of_valid hv] at h; cases h
  · rw [Memory.write_of_invalid hv] at h; exact (Except.error.inj h).symm

theorem readOperand_error {ops : List Operand} {m : Memory} {e : ErrCode} (h : readOperand ops m = .error e) :
    e ≠ .none := by
  cases hr : resolveDirect ops with
  | error e' =>
    simp only [readOperand, hr, Except.bind, Except.error.injEq] at h
    rcases resolveDirect_error hr with he | he <;> subst h <;> rw [he] <;> decide
  | ok a =>
    simp only [readOperand, hr, Except.bind] at h
    rw [Memory.read_error h]; decide

theorem readTarget_error {ops : List Operand} {m : Memory} {e : ErrCode} (h : readTarget ops m = .error e) :
    e ≠ .none := by
  cases hr : resolveOne ops with
  | error e' =>
    simp only [readTarget, hr, Except.bind, Except.error.injEq] at h
    subst h; rw [resolveOne_error hr]; decide
  | ok o =>
    cases o with
    | immediate i => simp [readTarget, hr, Except.bind, targetOf] at h
    | direct a =>
      cases hm : m.read a with
      | error e' =>
        simp only [readTarget, hr, Except.bind, targetOf, hm, Except.map, Except.error.injEq] at h
        subst h; rw [Memory.read_error hm]; decide
      | ok w => simp [readTarget, hr, Except.bind, targetOf, hm, Except.map] at h

end Sys2Proof.Machine
end

