-- ==== Sys2Proof/Laws/State.lean ====
section
/-! SUPPORT. One lemma per field per update of the state, so that no later proof unfolds a record update. -/

namespace Sys2Proof.Machine

/-! ### `setAcc` -/

@[simp] theorem setAcc_acc (s : State) (v : Word) : (s.setAcc v).acc = v := rfl
@[simp] theorem setAcc_pc (s : State) (v : Word) : (s.setAcc v).pc = s.pc := rfl
@[simp] theorem setAcc_phase (s : State) (v : Word) : (s.setAcc v).phase = s.phase := rfl
@[simp] theorem setAcc_flags (s : State) (v : Word) : (s.setAcc v).flags = s.flags := rfl
@[simp] theorem setAcc_cycles (s : State) (v : Word) : (s.setAcc v).cycles = s.cycles := rfl
@[simp] theorem setAcc_ir (s : State) (v : Word) : (s.setAcc v).ir = s.ir := rfl
@[simp] theorem setAcc_irasm (s : State) (v : Word) : (s.setAcc v).irasm = s.irasm := rfl
@[simp] theorem setAcc_err (s : State) (v : Word) : (s.setAcc v).err = s.err := rfl
@[simp] theorem setAcc_mem (s : State) (v : Word) : (s.setAcc v).mem = s.mem := rfl
@[simp] theorem setAcc_prog (s : State) (v : Word) : (s.setAcc v).prog = s.prog := rfl
@[simp] theorem setAcc_hist (s : State) (v : Word) : (s.setAcc v).hist = s.hist := rfl
@[simp] theorem setAcc_extJumps (s : State) (v : Word) : (s.setAcc v).extJumps = s.extJumps := rfl

/-! ### `setFlags` -/

@[simp] theorem setFlags_acc (s : State) (f : Flags) : (s.setFlags f).acc = s.acc := rfl
@[simp] theorem setFlags_pc (s : State) (f : Flags) : (s.setFlags f).pc = s.pc := rfl
@[simp] theorem setFlags_phase (s : State) (f : Flags) : (s.setFlags f).phase = s.phase := rfl
@[simp] theorem setFlags_flags (s : State) (f : Flags) : (s.setFlags f).flags = f := rfl
@[simp] theorem setFlags_cycles (s : State) (f : Flags) : (s.setFlags f).cycles = s.cycles := rfl
@[simp] theorem setFlags_ir (s : State) (f : Flags) : (s.setFlags f).ir = s.ir := rfl
@[simp] theorem setFlags_irasm (s : State) (f : Flags) : (s.setFlags f).irasm = s.irasm := rfl
@[simp] theorem setFlags_err (s : State) (f : Flags) : (s.setFlags f).err = s.err := rfl
@[simp] theorem setFlags_mem (s : State) (f : Flags) : (s.setFlags f).mem = s.mem := rfl
@[simp] theorem setFlags_prog (s : State) (f : Flags) : (s.setFlags f).prog = s.prog := rfl
@[simp] theorem setFlags_hist (s : State) (f : Flags) : (s.setFlags f).hist = s.hist := rfl
@[simp] theorem setFlags_extJumps (s : State) (f : Flags) : (s.setFlags f).extJumps = s.extJumps := rfl

/-! ### `setPc` -/

@[simp] theorem setPc_acc (s : State) (n : Nat) : (s.setPc n).acc = s.acc := rfl
@[simp] theorem setPc_pc (s : State) (n : Nat) : (s.setPc n).pc = n := rfl
@[simp] theorem setPc_phase (s : State) (n : Nat) : (s.setPc n).phase = s.phase := rfl
@[simp] theorem setPc_flags (s : State) (n : Nat) : (s.setPc n).flags = s.flags := rfl
@[simp] theorem setPc_cycles (s : State) (n : Nat) : (s.setPc n).cycles = s.cycles := rfl
@[simp] theorem setPc_ir (s : State) (n : Nat) : (s.setPc n).ir = s.ir := rfl
@[simp] theorem setPc_irasm (s : State) (n : Nat) : (s.setPc n).irasm = s.irasm := rfl
@[simp] theorem setPc_err (s : State) (n : Nat) : (s.setPc n).err = s.err := rfl
@[simp] theorem setPc_mem (s : State) (n : Nat) : (s.setPc n).mem = s.mem := rfl
@[simp] theorem setPc_prog (s : State) (n : Nat) : (s.setPc n).prog = s.prog := rfl
@[simp] theorem setPc_hist (s : State) (n : Nat) : (s.setPc n).hist = s.hist := rfl
@[simp] theorem setPc_extJumps (s : State) (n : Nat) : (s.setPc n).extJumps = s.extJumps := rfl

/-! ### `setMem` -/

@[simp] theorem setMem_acc (s : State) (m : Memory) : (s.setMem m).acc = s.acc := rfl
@[simp] theorem setMem_pc (s : State) (m : Memory) : (s.setMem m).pc = s.pc := rfl
@[simp] theorem setMem_phase (s : State) (m : Memory) : (s.setMem m).phase = s.phase := rfl
@[simp] theorem setMem_flags (s : State) (m : Memory) : (s.setMem m).flags = s.flags := rfl
@[simp] theorem setMem_cycles (s : State) (m : Memory) : (s.setMem m).cycles = s.cycles := rfl
@[simp] theorem setMem_ir (s : State) (m : Memory) : (s.setMem m).ir = s.ir := rfl
@[simp] theorem setMem_irasm (s : State) (m : Memory) : (s.setMem m).irasm = s.irasm := rfl
@[simp] theorem setMem_err (s : State) (m : Memory) : (s.setMem m).err = s.err := rfl
@[simp] theorem setMem_mem (s : State) (m : Memory) : (s.setMem m).mem = m := rfl
@[simp] theorem setMem_prog (s : State) (m : Memory) : (s.setMem m).prog = s.prog := rfl
@[simp] theorem setMem_hist (s : State) (m : Memory) : (s.setMem m).hist = s.hist := rfl
@[simp] theorem setMem_extJumps (s : State) (m : Memory) : (s.setMem m).extJumps = s.extJumps := rfl

/-! ### `record` -/

@[simp] theorem record_acc (s t : State) : (s.record t).acc = t.acc := rfl
@[simp] theorem record_pc (s t : State) : (s.record t).pc = t.pc := rfl
@[simp] theorem record_phase (s t : State) : (s.record t).phase = t.phase := rfl
@[simp] theorem record_flags (s t : State) : (s.record t).flags = t.flags := rfl
@[simp] theorem record_cycles (s t : State) : (s.record t).cycles = t.cycles := rfl
@[simp] theorem record_ir (s t : State) : (s.record t).ir = t.ir := rfl
@[simp] theorem record_irasm (s t : State) : (s.record t).irasm = t.irasm := rfl
@[simp] theorem record_err (s t : State) : (s.record t).err = t.err := rfl
@[simp] theorem record_mem (s t : State) : (s.record t).mem = t.mem := rfl
@[simp] theorem record_prog (s t : State) : (s.record t).prog = t.prog := rfl
@[simp] theorem record_hist (s t : State) : (s.record t).hist = t.hist ++ [s.executeEntry t] := rfl
@[simp] theorem record_extJumps (s t : State) : (s.record t).extJumps = t.extJumps := rfl

/-! ### `errorHalt` -/

@[simp] theorem errorHalt_acc (s : State) (e : ErrCode) : (s.errorHalt e).acc = s.acc := rfl
@[simp] theorem errorHalt_pc (s : State) (e : ErrCode) : (s.errorHalt e).pc = s.pc := rfl
@[simp] theorem errorHalt_phase (s : State) (e : ErrCode) : (s.errorHalt e).phase = .halted := rfl
@[simp] theorem errorHalt_flags (s : State) (e : ErrCode) : (s.errorHalt e).flags = s.flags := rfl
@[simp] theorem errorHalt_cycles (s : State) (e : ErrCode) : (s.errorHalt e).cycles = s.cycles := rfl
@[simp] theorem errorHalt_ir (s : State) (e : ErrCode) : (s.errorHalt e).ir = s.ir := rfl
@[simp] theorem errorHalt_irasm (s : State) (e : ErrCode) : (s.errorHalt e).irasm = s.irasm := rfl
@[simp] theorem errorHalt_err (s : State) (e : ErrCode) : (s.errorHalt e).err = e := rfl
@[simp] theorem errorHalt_mem (s : State) (e : ErrCode) : (s.errorHalt e).mem = s.mem := rfl
@[simp] theorem errorHalt_prog (s : State) (e : ErrCode) : (s.errorHalt e).prog = s.prog := rfl
@[simp] theorem errorHalt_hist (s : State) (e : ErrCode) : (s.errorHalt e).hist = s.hist ++ [⟨.execute, s.currentLine, s.regs, s.regs, some (s.mem, s.mem)⟩] := rfl
@[simp] theorem errorHalt_extJumps (s : State) (e : ErrCode) : (s.errorHalt e).extJumps = s.extJumps := rfl

/-! ### `epilogue` of an instruction that goes on -/

@[simp] theorem epilogue_sequential_acc (s t : State) : (s.epilogue .sequential t).acc = t.acc := rfl
@[simp] theorem epilogue_sequential_pc (s t : State) : (s.epilogue .sequential t).pc = t.pc + 1 := rfl
@[simp] theorem epilogue_sequential_phase (s t : State) : (s.epilogue .sequential t).phase = .idle := rfl
@[simp] theorem epilogue_sequential_flags (s t : State) : (s.epilogue .sequential t).flags = t.flags := rfl
@[simp] theorem epilogue_sequential_cycles (s t : State) : (s.epilogue .sequential t).cycles = t.cycles + 1 := rfl
@[simp] theorem epilogue_sequential_ir (s t : State) : (s.epilogue .sequential t).ir = t.ir := rfl
@[simp] theorem epilogue_sequential_irasm (s t : State) : (s.epilogue .sequential t).irasm = t.irasm := rfl
@[simp] theorem epilogue_sequential_err (s t : State) : (s.epilogue .sequential t).err = t.err := rfl
@[simp] theorem epilogue_sequential_mem (s t : State) : (s.epilogue .sequential t).mem = t.mem := rfl
@[simp] theorem epilogue_sequential_prog (s t : State) : (s.epilogue .sequential t).prog = t.prog := rfl
@[simp] theorem epilogue_sequential_hist (s t : State) : (s.epilogue .sequential t).hist = t.hist ++ [s.executeEntry (s.epilogue .sequential t)] := rfl
@[simp] theorem epilogue_sequential_extJumps (s t : State) : (s.epilogue .sequential t).extJumps = t.extJumps := rfl

/-! ### `epilogue` of a taken jump -/

@[simp] theorem epilogue_jumped_acc (s t : State) : (s.epilogue .jumped t).acc = t.acc := rfl
@[simp] theorem epilogue_jumped_pc (s t : State) : (s.epilogue .jumped t).pc = t.pc := rfl
@[simp] theorem epilogue_jumped_phase (s t : State) : (s.epilogue .jumped t).phase = .idle := rfl
@[simp] theorem epilogue_jumped_flags (s t : State) : (s.epilogue .jumped t).flags = t.flags := rfl
@[simp] theorem epilogue_jumped_cycles (s t : State) : (s.epilogue .jumped t).cycles = t.cycles + 1 := rfl
@[simp] theorem epilogue_jumped_ir (s t : State) : (s.epilogue .jumped t).ir = t.ir := rfl
@[simp] theorem epilogue_jumped_irasm (s t : State) : (s.epilogue .jumped t).irasm = t.irasm := rfl
@[simp] theorem epilogue_jumped_err (s t : State) : (s.epilogue .jumped t).err = t.err := rfl
@[simp] theorem epilogue_jumped_mem (s t : State) : (s.epilogue .jumped t).mem = t.mem := rfl
@[simp] theorem epilogue_jumped_prog (s t : State) : (s.epilogue .jumped t).prog = t.prog := rfl
@[simp] theorem epilogue_jumped_hist (s t : State) : (s.epilogue .jumped t).hist = t.hist ++ [s.executeEntry (s.epilogue .jumped t)] := rfl
@[simp] theorem epilogue_jumped_extJumps (s t : State) : (s.epilogue .jumped t).extJumps = t.extJumps := rfl

/-! ### `epilogue` of HALT -/

@[simp] theorem epilogue_stop_acc (s t : State) : (s.epilogue .stop t).acc = t.acc := rfl
@[simp] theorem epilogue_stop_pc (s t : State) : (s.epilogue .stop t).pc = t.pc := rfl
@[simp] theorem epilogue_stop_phase (s t : State) : (s.epilogue .stop t).phase = .halted := rfl
@[simp] theorem epilogue_stop_flags (s t : State) : (s.epilogue .stop t).flags = t.flags := rfl
@[simp] theorem epilogue_stop_cycles (s t : State) : (s.epilogue .stop t).cycles = t.cycles := rfl
@[simp] theorem epilogue_stop_ir (s t : State) : (s.epilogue .stop t).ir = t.ir := rfl
@[simp] theorem epilogue_stop_irasm (s t : State) : (s.epilogue .stop t).irasm = t.irasm := rfl
@[simp] theorem epilogue_stop_err (s t : State) : (s.epilogue .stop t).err = t.err := rfl
@[simp] theorem epilogue_stop_mem (s t : State) : (s.epilogue .stop t).mem = t.mem := rfl
@[simp] theorem epilogue_stop_prog (s t : State) : (s.epilogue .stop t).prog = t.prog := rfl
@[simp] theorem epilogue_stop_hist (s t : State) : (s.epilogue .stop t).hist = t.hist ++ [s.executeEntry (s.epilogue .stop t)] := rfl
@[simp] theorem epilogue_stop_extJumps (s t : State) : (s.epilogue .stop t).extJumps = t.extJumps := rfl

/-! ### `haltPastEnd` -/

@[simp] theorem haltPastEnd_acc (s : State) : (s.haltPastEnd).acc = s.acc := rfl
@[simp] theorem haltPastEnd_pc (s : State) : (s.haltPastEnd).pc = s.pc := rfl
@[simp] theorem haltPastEnd_phase (s : State) : (s.haltPastEnd).phase = .halted := rfl
@[simp] theorem haltPastEnd_flags (s : State) : (s.haltPastEnd).flags = s.flags := rfl
@[simp] theorem haltPastEnd_cycles (s : State) : (s.haltPastEnd).cycles = s.cycles := rfl
@[simp] theorem haltPastEnd_ir (s : State) : (s.haltPastEnd).ir = s.ir := rfl
@[simp] theorem haltPastEnd_irasm (s : State) : (s.haltPastEnd).irasm = s.irasm := rfl
@[simp] theorem haltPastEnd_err (s : State) : (s.haltPastEnd).err = s.err := rfl
@[simp] theorem haltPastEnd_mem (s : State) : (s.haltPastEnd).mem = s.mem := rfl
@[simp] theorem haltPastEnd_prog (s : State) : (s.haltPastEnd).prog = s.prog := rfl
@[simp] theorem haltPastEnd_hist (s : State) : (s.haltPastEnd).hist = s.hist := rfl
@[simp] theorem haltPastEnd_extJumps (s : State) : (s.haltPastEnd).extJumps = s.extJumps := rfl

/-! ### `fetchLine` -/

@[simp] theorem fetchLine_acc (s : State) (l : Line) : (s.fetchLine l).acc = s.acc := rfl
@[simp] theorem fetchLine_pc (s : State) (l : Line) : (s.fetchLine l).pc = s.pc := rfl
@[simp] theorem fetchLine_phase (s : State) (l : Line) : (s.fetchLine l).phase = .fetched l := rfl
@[simp] theorem fetchLine_flags (s : State) (l : Line) : (s.fetchLine l).flags = s.flags := rfl
@[simp] theorem fetchLine_cycles (s : State) (l : Line) : (s.fetchLine l).cycles = s.cycles := rfl
@[simp] theorem fetchLine_ir (s : State) (l : Line) : (s.fetchLine l).ir = none := rfl
@[simp] theorem fetchLine_irasm (s : State) (l : Line) : (s.fetchLine l).irasm = some l := rfl
@[simp] theorem fetchLine_err (s : State) (l : Line) : (s.fetchLine l).err = s.err := rfl
@[simp] theorem fetchLine_mem (s : State) (l : Line) : (s.fetchLine l).mem = s.mem := rfl
@[simp] theorem fetchLine_prog (s : State) (l : Line) : (s.fetchLine l).prog = s.prog := rfl
@[simp] theorem fetchLine_hist (s : State) (l : Line) : (s.fetchLine l).hist = s.hist ++ [s.traceEntry .fetch l] := rfl
@[simp] theorem fetchLine_extJumps (s : State) (l : Line) : (s.fetchLine l).extJumps = s.extJumps := rfl

/-! ### `decodeLine` -/

@[simp] theorem decodeLine_acc (s : State) (l : Line) : (s.decodeLine l).acc = s.acc := rfl
@[simp] theorem decodeLine_pc (s : State) (l : Line) : (s.decodeLine l).pc = s.pc := rfl
@[simp] theorem decodeLine_phase (s : State) (l : Line) : (s.decodeLine l).phase = .decoded (split l).1 (split l).2 := rfl
@[simp] theorem decodeLine_flags (s : State) (l : Line) : (s.decodeLine l).flags = s.flags := rfl
@[simp] theorem decodeLine_cycles (s : State) (l : Line) : (s.decodeLine l).cycles = s.cycles := rfl
@[simp] theorem decodeLine_ir (s : State) (l : Line) : (s.decodeLine l).ir = (Mnemonic.ofName (split l).1).map displayOpcode := rfl
@[simp] theorem decodeLine_irasm (s : State) (l : Line) : (s.decodeLine l).irasm = s.irasm := rfl
@[simp] theorem decodeLine_err (s : State) (l : Line) : (s.decodeLine l).err = s.err := rfl
@[simp] theorem decodeLine_mem (s : State) (l : Line) : (s.decodeLine l).mem = s.mem := rfl
@[simp] theorem decodeLine_prog (s : State) (l : Line) : (s.decodeLine l).prog = s.prog := rfl
@[simp] theorem decodeLine_hist (s : State) (l : Line) : (s.decodeLine l).hist = s.hist ++ [s.traceEntry .decode l] := rfl
@[simp] theorem decodeLine_extJumps (s : State) (l : Line) : (s.decodeLine l).extJumps = s.extJumps := rfl

/-! ### `load` -/

@[simp] theorem load_acc (s : State) (ls : List Line) : (s.load ls).acc = 0#16 := rfl
@[simp] theorem load_pc (s : State) (ls : List Line) : (s.load ls).pc = 0 := rfl
@[simp] theorem load_phase (s : State) (ls : List Line) : (s.load ls).phase = .idle := rfl
@[simp] theorem load_flags (s : State) (ls : List Line) : (s.load ls).flags = Flags.clear := rfl
@[simp] theorem load_cycles (s : State) (ls : List Line) : (s.load ls).cycles = 0 := rfl
@[simp] theorem load_ir (s : State) (ls : List Line) : (s.load ls).ir = none := rfl
@[simp] theorem load_irasm (s : State) (ls : List Line) : (s.load ls).irasm = none := rfl
@[simp] theorem load_err (s : State) (ls : List Line) : (s.load ls).err = .none := rfl
@[simp] theorem load_mem (s : State) (ls : List Line) : (s.load ls).mem = s.mem := rfl
@[simp] theorem load_prog (s : State) (ls : List Line) : (s.load ls).prog = ls := rfl
@[simp] theorem load_hist (s : State) (ls : List Line) : (s.load ls).hist = [] := rfl
@[simp] theorem load_extJumps (s : State) (ls : List Line) : (s.load ls).extJumps = s.extJumps := rfl

/-! ### What is read of a state -/

@[simp] theorem regs_acc (s : State) : s.regs.acc = s.acc := rfl
@[simp] theorem regs_pc (s : State) : s.regs.pc = s.pc := rfl
@[simp] theorem regs_flags (s : State) : s.regs.flags = s.flags := rfl
@[simp] theorem executeEntry_phase (s t : State) : (s.executeEntry t).phase = .execute := rfl
@[simp] theorem traceEntry_phase (s : State) (g : PhaseTag) (l : Line) : (s.traceEntry g l).phase = g := rfl

theorem halted_iff (s : State) : s.halted = true ↔ s.phase = .halted := by simp [State.halted]

theorem continues_iff (s : State) : s.continues = true ↔ s.phase ≠ .halted := by
  simp [State.continues, State.halted]

/-- An execute entry reads only ACC, PC, the flags and MEM of the state after. -/
theorem executeEntry_congr (s t u : State) (ha : t.acc = u.acc) (hp : t.pc = u.pc) (hf : t.flags = u.flags)
    (hm : t.mem = u.mem) : s.executeEntry t = s.executeEntry u := by
  simp only [State.executeEntry, State.regs, ha, hp, hf, hm]

end Sys2Proof.Machine
end

