-- ==== Sys2Proof/Laws/Ops.lean ====
section
/-! SUPPORT. What the execute phase of an instruction can do, said once: every proof over all instructions starts from
`exec_cases`. -/

namespace Sys2Proof.Machine

@[simp] theorem execute_eq (body : State → BodyResult) (s : State) : execute body s = .next (s.afterBody (body s)) := rfl

@[simp] theorem afterBody_ok (s t : State) (adv : Advance) : s.afterBody (.ok (adv, t)) = s.epilogue adv t := rfl

@[simp] theorem afterBody_error (s : State) (e : ErrCode) : s.afterBody (.error e) = s.errorHalt e := rfl

/-- Whether a mnemonic is one of the three that write the flags (R28). -/
def Mnemonic.writesFlags (m : Mnemonic) : Bool := decide (m = .add ∨ m = .sub ∨ m = .cmp)

/-- Whether a mnemonic is one of the ten that write ACC (R22). -/
def Mnemonic.writesAcc (m : Mnemonic) : Bool :=
  decide (m = .add ∨ m = .sub ∨ m = .mul ∨ m = .div ∨ m = .and ∨ m = .or ∨ m = .xor ∨ m = .not ∨ m = .lda ∨ m = .ldi)

/-- Everything the body of an instruction can have done when it answers `adv` and `t`. -/
structure BodyEffect (i : Instr) (s : State) (adv : Advance) (t : State) : Prop where
  rest : t = { s with acc := t.acc, flags := t.flags, pc := t.pc, mem := t.mem }
  acc : Mnemonic.writesAcc i.mnemonic = false → t.acc = s.acc
  flags : Mnemonic.writesFlags i.mnemonic = false → t.flags = s.flags
  mem : t.mem = s.mem ∨ ∃ a, i = .sta [.direct a] ∧ s.mem.write a s.acc = .ok t.mem
  pc : adv ≠ .jumped → t.pc = s.pc
  jump : adv = .jumped → i.mnemonic.operandClass = .j
  stop : adv = .stop → i = .halt [] ∧ t = s

/-- A state that differs in ACC and the flags alone. -/
theorem BodyEffect.of_acc_flags {i : Instr} {s : State} (w : Word) (f : Flags)
    (ha : Mnemonic.writesAcc i.mnemonic = false → w = s.acc)
    (hf : Mnemonic.writesFlags i.mnemonic = false → f = s.flags) :
    BodyEffect i s .sequential { s with acc := w, flags := f } where
  rest := rfl
  acc := ha
  flags := hf
  mem := .inl rfl
  pc := fun _ => rfl
  jump := fun h => by cases h
  stop := fun h => by cases h

/-- A class-D body that succeeds: one valid Direct operand, and what `use` makes of its cell. -/
theorem readBody_ok {ops : List Operand} {use : State → Word → Except ErrCode State} {s t : State} {adv : Advance}
    (h : readBody ops use s = .ok (adv, t)) :
    ∃ a : Int, ops = [.direct a] ∧ (0 ≤ a ∧ a < (s.mem.size : Int)) ∧ use s (s.mem.get a.toNat) = .ok t ∧
      adv = .sequential := by
  cases hr : readOperand ops s.mem with
  | error e => simp [readBody, hr, Except.bind] at h
  | ok m =>
    obtain ⟨a, rfl, hv, rfl⟩ := readOperand_ok hr
    cases hm : use s (s.mem.get a.toNat) with
    | error e => simp [readBody, hr, hm, Except.bind, Except.map] at h
    | ok u =>
      simp only [readBody, hr, hm, Except.bind, Except.map, Except.ok.injEq, Prod.mk.injEq] at h
      exact ⟨a, rfl, hv, by rw [hm, h.2], h.1.symm⟩

/-- A class-D body on a valid address. -/
theorem readBody_valid {use : State → Word → Except ErrCode State} {s : State} {a : Int}
    (h : 0 ≤ a ∧ a < (s.mem.size : Int)) :
    readBody [.direct a] use s = (use s (s.mem.get a.toNat)).map fun t => (.sequential, t) := by
  simp [readBody, readOperand_valid h, Except.bind]

theorem readBody_effect {i : Instr} {s t : State} {adv : Advance} {ops : List Operand}
    {use : State → Word → Except ErrCode State} (hu : ∀ m u, use s m = .ok u → BodyEffect i s .sequential u)
    (h : readBody ops use s = .ok (adv, t)) : BodyEffect i s adv t := by
  obtain ⟨a, -, -, hu', rfl⟩ := readBody_ok h
  exact hu _ _ hu'

/-- What a jump can do: error, or the state unchanged, or PC at the target when the condition holds. -/
theorem jumpBody_ok {cond : State → Bool} {ops : List Operand} {s t : State} {adv : Advance}
    (h : jumpBody cond ops s = .ok (adv, t)) :
    ∃ n, readTarget ops s.mem = .ok n ∧
      ((cond s = true ∧ 0 ≤ n ∧ adv = .jumped ∧ t = s.setPc n.toNat) ∨
        (cond s = false ∧ adv = .sequential ∧ t = s)) := by
  cases hr : readTarget ops s.mem with
  | error e => simp [jumpBody, hr, Except.bind] at h
  | ok n =>
    refine ⟨n, rfl, ?_⟩
    cases hc : cond s with
    | false => simp_all [jumpBody, Except.bind]
    | true =>
      by_cases hn : n < 0
      · simp [jumpBody, hr, Except.bind, hc, hn] at h
      · simp only [jumpBody, hr, Except.bind, hc, if_true, hn, if_false, Except.ok.injEq, Prod.mk.injEq] at h
        exact .inl ⟨rfl, by omega, h.1.symm, h.2.symm⟩

theorem jumpBody_effect {i : Instr} (hi : i.mnemonic.operandClass = .j) {cond : State → Bool} {ops : List Operand}
    {s t : State} {adv : Advance} (h : jumpBody cond ops s = .ok (adv, t)) : BodyEffect i s adv t := by
  obtain ⟨n, -, ⟨-, -, rfl, rfl⟩ | ⟨-, rfl, rfl⟩⟩ := jumpBody_ok h
  · exact ⟨rfl, fun _ => rfl, fun _ => rfl, .inl rfl, fun h => absurd rfl h, fun _ => hi, fun h => (nomatch h)⟩
  · exact ⟨rfl, fun _ => rfl, fun _ => rfl, .inl rfl, fun _ => rfl, fun h => (nomatch h), fun h => (nomatch h)⟩

theorem extendedBody_ok {body : State → BodyResult} {s t : State} {adv : Advance}
    (h : extendedBody body s = .ok (adv, t)) : s.extJumps = true ∧ body s = .ok (adv, t) := by
  cases he : s.extJumps <;> simp_all [extendedBody]

/-- The body of a class-N instruction. -/
theorem noneBody_ok {ops : List Operand} {result : State → State} {s t : State} {adv adv' : Advance}
    (h : noneBody ops adv' result s = .ok (adv, t)) : ops = [] ∧ adv = adv' ∧ t = result s := by
  cases ops with
  | nil => simp_all [noneBody, Except.map]
  | cons o rest => simp [noneBody, resolveNone, Except.map] at h

theorem readBody_error {ops : List Operand} {use : State → Word → Except ErrCode State} {s : State} {e : ErrCode}
    (hu : ∀ m, use s m ≠ .error .none) (h : readBody ops use s = .error e) : e ≠ .none := by
  cases hr : readOperand ops s.mem with
  | error e' =>
    simp only [readBody, hr, Except.bind, Except.error.injEq] at h
    exact h ▸ readOperand_error hr
  | ok m =>
    cases hm : use s m with
    | error e' =>
      simp only [readBody, hr, hm, Except.bind, Except.map, Except.error.injEq] at h
      subst h
      exact fun he => hu m (he ▸ hm)
    | ok u => simp [readBody, hr, hm, Except.bind, Except.map] at h

theorem jumpBody_error {cond : State → Bool} {ops : List Operand} {s : State} {e : ErrCode}
    (h : jumpBody cond ops s = .error e) : e ≠ .none := by
  cases hr : readTarget ops s.mem with
  | error e' =>
    simp only [jumpBody, hr, Except.bind, Except.error.injEq] at h
    exact h ▸ readTarget_error hr
  | ok n =>
    cases hc : cond s with
    | false => simp [jumpBody, hr, Except.bind, hc] at h
    | true =>
      by_cases hn : n < 0
      · simp only [jumpBody, hr, Except.bind, hc, hn, if_true, Except.error.injEq] at h
        subst h; decide
      · simp [jumpBody, hr, Except.bind, hc, hn] at h

theorem extendedBody_error {body : State → BodyResult} {s : State} {e : ErrCode}
    (hb : ∀ e, body s = .error e → e ≠ .none) (h : extendedBody body s = .error e) : e ≠ .none := by
  cases he : s.extJumps with
  | true => exact hb e (by simpa [extendedBody, he] using h)
  | false =>
    have : ErrCode.unknownInstruction = e := by simpa [extendedBody, he] using h
    subst this; decide

theorem noneBody_error {ops : List Operand} {result : State → State} {s : State} {adv : Advance} {e : ErrCode}
    (h : noneBody ops adv result s = .error e) : e ≠ .none := by
  cases ops with
  | nil => simp [noneBody, Except.map] at h
  | cons o rest =>
    have : ErrCode.syntaxError = e := by simpa [noneBody, resolveNone, Except.map] using h
    subst this; decide

/-- Every execute phase answers the epilogue of a body that did no more than `BodyEffect` says, or an error halt. -/
theorem exec_cases (i : Instr) (s : State) :
    (∃ adv t, exec i s = .next (s.epilogue adv t) ∧ BodyEffect i s adv t) ∨
      ∃ e, e ≠ .none ∧ exec i s = .next (s.errorHalt e) := by
  have key : ∃ r : BodyResult, exec i s = .next (s.afterBody r) ∧
      (∀ adv t, r = .ok (adv, t) → BodyEffect i s adv t) ∧ ∀ e, r = .error e → e ≠ .none := by
    cases i with
    | add ops | sub ops | mul ops | and ops | or ops | xor ops | lda ops | cmp ops =>
      refine ⟨_, rfl, fun adv t h => readBody_effect (fun m u hu => ?_) h,
        fun e h => readBody_error (fun m he => by cases he) h⟩
      obtain rfl := Except.ok.inj hu
      exact BodyEffect.of_acc_flags _ _ (fun h => by first | rfl | cases h) (fun h => by first | rfl | cases h)
    | div ops =>
      refine ⟨_, rfl, fun adv t h => readBody_effect (fun m u hu => ?_) h,
        fun e h => readBody_error (fun m he => by by_cases hm : m = 0#16 <;> simp [hm] at he) h⟩
      by_cases hm : m = 0#16
      · simp [hm] at hu
      · rw [if_neg hm] at hu
        obtain rfl := Except.ok.inj hu
        exact BodyEffect.of_acc_flags _ _ (fun h => by cases h) (fun _ => rfl)
    | not ops =>
      refine ⟨_, rfl, fun adv t h => ?_, fun e h => noneBody_error h⟩
      obtain ⟨-, rfl, rfl⟩ := noneBody_ok h
      exact BodyEffect.of_acc_flags _ _ (fun h => by cases h) (fun _ => rfl)
    | nop ops =>
      refine ⟨_, rfl, fun adv t h => ?_, fun e h => noneBody_error h⟩
      obtain ⟨-, rfl, rfl⟩ := noneBody_ok h
      exact BodyEffect.of_acc_flags t.acc t.flags (fun _ => rfl) (fun _ => rfl)
    | halt ops =>
      refine ⟨_, rfl, fun adv t h => ?_, fun e h => noneBody_error h⟩
      obtain ⟨rfl, rfl, rfl⟩ := noneBody_ok h
      exact ⟨rfl, fun _ => rfl, fun _ => rfl, .inl rfl, fun _ => rfl, fun h => (nomatch h), fun _ => ⟨rfl, rfl⟩⟩
    | ldi ops =>
      refine ⟨_, rfl, fun adv t h => ?_, fun e h => ?_⟩
      swap
      · cases hr : resolveImmediate ops with
        | ok j => simp [hr, Except.map] at h
        | error e' =>
          simp only [hr, Except.map, Except.error.injEq] at h
          rcases resolveImmediate_error hr with he | he <;> subst h <;> rw [he] <;> decide
      cases hr : resolveImmediate ops with
      | error e => simp [hr, Except.map] at h
      | ok j =>
        simp only [hr, Except.map, Except.ok.injEq, Prod.mk.injEq] at h
        obtain ⟨rfl, rfl⟩ := h
        exact BodyEffect.of_acc_flags _ _ (fun h => by cases h) (fun _ => rfl)
    | sta ops =>
      refine ⟨_, rfl, fun adv t h => ?_, fun e h => ?_⟩
      swap
      · cases hr : resolveDirect ops with
        | error e' =>
          simp only [hr, Except.bind, Except.error.injEq] at h
          rcases resolveDirect_error hr with he | he <;> subst h <;> rw [he] <;> decide
        | ok a =>
          cases hw : s.mem.write a s.acc with
          | ok k => simp [hr, hw, Except.bind, Except.map] at h
          | error e' =>
            simp only [hr, hw, Except.bind, Except.map, Except.error.injEq] at h
            subst h; rw [Memory.write_error hw]; decide
      cases hr : resolveDirect ops with
      | error e => simp [hr, Except.bind] at h
      | ok a =>
        obtain rfl := resolveDirect_ok hr
        cases hw : s.mem.write a s.acc with
        | error e => simp [hr, hw, Except.bind, Except.map] at h
        | ok k =>
          simp only [hr, hw, Except.bind, Except.map, Except.ok.injEq, Prod.mk.injEq] at h
          obtain ⟨rfl, rfl⟩ := h
          exact ⟨rfl, fun _ => rfl, fun _ => rfl, .inr ⟨a, rfl, hw⟩, fun _ => rfl, fun h => (nomatch h),
            fun h => (nomatch h)⟩
    | jmp ops | jz ops | jnz ops | jc ops | jnc ops =>
      exact ⟨_, rfl, fun adv t h => jumpBody_effect rfl h, fun e h => jumpBody_error h⟩
    | jv ops | jnv ops | jn ops | jnn ops =>
      exact ⟨_, rfl, fun adv t h => jumpBody_effect rfl (extendedBody_ok h).2,
        fun e h => extendedBody_error (fun e h => jumpBody_error h) h⟩
  obtain ⟨r, hr, ho, he⟩ := key
  cases r with
  | error e => exact .inr ⟨e, he e rfl, hr⟩
  | ok p => exact .inl ⟨p.1, p.2, hr, ho p.1 p.2 rfl⟩

/-- No execute phase stops the model. -/
theorem exec_answers_next (i : Instr) (s : State) : ∃ t, exec i s = .next t := by
  rcases exec_cases i s with ⟨adv, t, h, -⟩ | ⟨e, -, h⟩
  · exact ⟨_, h⟩
  · exact ⟨_, h⟩

/-- Whatever the advance, the epilogue writes PC, PHASE, CYCLES and HIST alone. -/
theorem epilogue_keeps (s t : State) (adv : Advance) :
    (s.epilogue adv t).acc = t.acc ∧ (s.epilogue adv t).flags = t.flags ∧ (s.epilogue adv t).mem = t.mem ∧
      (s.epilogue adv t).ir = t.ir ∧ (s.epilogue adv t).irasm = t.irasm ∧ (s.epilogue adv t).err = t.err ∧
      (s.epilogue adv t).prog = t.prog ∧ (s.epilogue adv t).extJumps = t.extJumps := by
  cases adv <;> exact ⟨rfl, rfl, rfl, rfl, rfl, rfl, rfl, rfl⟩

theorem epilogue_phase (s t : State) (adv : Advance) :
    (s.epilogue adv t).phase = if adv = .stop then .halted else .idle := by
  cases adv <;> rfl

theorem epilogue_hist (s t : State) (adv : Advance) :
    (s.epilogue adv t).hist = t.hist ++ [s.executeEntry (s.epilogue adv t)] := by
  cases adv <;> rfl

end Sys2Proof.Machine
end

