-- ==== Sys2Proof/Laws/PerInstr.lean ====
section
/-! SUPPORT. A statement about every instruction as syntax, made constructor by constructor. -/

namespace Sys2Proof.Laws

/-- An instruction is what its own mnemonic and operands make, its name is the name of its mnemonic alone, and its
operand class says how many operands a well-formed one has (R66, R68). -/
def NameAndTokens.Statement (i : Instr) : Prop :=
  i.mnemonic.instr i.operands = i ∧ Mnemonic.ofName i.mnemonic.name = some i.mnemonic ∧
    (i.wf = true → i.operands.length = i.mnemonic.operandClass.roles.length)

theorem directForm_length {ops : List Operand} (h : directForm ops = true) : ops.length = 1 := by
  match ops, h with
  | [.direct _], _ => rfl

theorem immediateForm_length {ops : List Operand} (h : immediateForm ops = true) : ops.length = 1 := by
  match ops, h with
  | [.immediate _], _ => rfl

theorem targetForm_length {ops : List Operand} (h : targetForm ops = true) : ops.length = 1 := by
  match ops, h with
  | [.immediate _], _ => rfl
  | [.direct _], _ => rfl

theorem emptyForm_length {ops : List Operand} (h : emptyForm ops = true) : ops.length = 0 := by
  match ops, h with
  | [], _ => rfl

theorem NameAndTokens.add (ops : List Operand) : NameAndTokens.Statement (.add ops) :=
  ⟨rfl, Mnemonic.ofName_name _, directForm_length⟩

theorem NameAndTokens.sub (ops : List Operand) : NameAndTokens.Statement (.sub ops) :=
  ⟨rfl, Mnemonic.ofName_name _, directForm_length⟩

theorem NameAndTokens.mul (ops : List Operand) : NameAndTokens.Statement (.mul ops) :=
  ⟨rfl, Mnemonic.ofName_name _, directForm_length⟩

theorem NameAndTokens.div (ops : List Operand) : NameAndTokens.Statement (.div ops) :=
  ⟨rfl, Mnemonic.ofName_name _, directForm_length⟩

theorem NameAndTokens.and (ops : List Operand) : NameAndTokens.Statement (.and ops) :=
  ⟨rfl, Mnemonic.ofName_name _, directForm_length⟩

theorem NameAndTokens.or (ops : List Operand) : NameAndTokens.Statement (.or ops) :=
  ⟨rfl, Mnemonic.ofName_name _, directForm_length⟩

theorem NameAndTokens.xor (ops : List Operand) : NameAndTokens.Statement (.xor ops) :=
  ⟨rfl, Mnemonic.ofName_name _, directForm_length⟩

theorem NameAndTokens.not (ops : List Operand) : NameAndTokens.Statement (.not ops) :=
  ⟨rfl, Mnemonic.ofName_name _, emptyForm_length⟩

theorem NameAndTokens.lda (ops : List Operand) : NameAndTokens.Statement (.lda ops) :=
  ⟨rfl, Mnemonic.ofName_name _, directForm_length⟩

theorem NameAndTokens.sta (ops : List Operand) : NameAndTokens.Statement (.sta ops) :=
  ⟨rfl, Mnemonic.ofName_name _, directForm_length⟩

theorem NameAndTokens.ldi (ops : List Operand) : NameAndTokens.Statement (.ldi ops) :=
  ⟨rfl, Mnemonic.ofName_name _, immediateForm_length⟩

theorem NameAndTokens.cmp (ops : List Operand) : NameAndTokens.Statement (.cmp ops) :=
  ⟨rfl, Mnemonic.ofName_name _, directForm_length⟩

theorem NameAndTokens.jmp (ops : List Operand) : NameAndTokens.Statement (.jmp ops) :=
  ⟨rfl, Mnemonic.ofName_name _, targetForm_length⟩

theorem NameAndTokens.jz (ops : List Operand) : NameAndTokens.Statement (.jz ops) :=
  ⟨rfl, Mnemonic.ofName_name _, targetForm_length⟩

theorem NameAndTokens.jnz (ops : List Operand) : NameAndTokens.Statement (.jnz ops) :=
  ⟨rfl, Mnemonic.ofName_name _, targetForm_length⟩

theorem NameAndTokens.jc (ops : List Operand) : NameAndTokens.Statement (.jc ops) :=
  ⟨rfl, Mnemonic.ofName_name _, targetForm_length⟩

theorem NameAndTokens.jnc (ops : List Operand) : NameAndTokens.Statement (.jnc ops) :=
  ⟨rfl, Mnemonic.ofName_name _, targetForm_length⟩

theorem NameAndTokens.jv (ops : List Operand) : NameAndTokens.Statement (.jv ops) :=
  ⟨rfl, Mnemonic.ofName_name _, targetForm_length⟩

theorem NameAndTokens.jnv (ops : List Operand) : NameAndTokens.Statement (.jnv ops) :=
  ⟨rfl, Mnemonic.ofName_name _, targetForm_length⟩

theorem NameAndTokens.jn (ops : List Operand) : NameAndTokens.Statement (.jn ops) :=
  ⟨rfl, Mnemonic.ofName_name _, targetForm_length⟩

theorem NameAndTokens.jnn (ops : List Operand) : NameAndTokens.Statement (.jnn ops) :=
  ⟨rfl, Mnemonic.ofName_name _, targetForm_length⟩

theorem NameAndTokens.halt (ops : List Operand) : NameAndTokens.Statement (.halt ops) :=
  ⟨rfl, Mnemonic.ofName_name _, emptyForm_length⟩

theorem NameAndTokens.nop (ops : List Operand) : NameAndTokens.Statement (.nop ops) :=
  ⟨rfl, Mnemonic.ofName_name _, emptyForm_length⟩

end Sys2Proof.Laws
end

