-- ==== Sys2Proof/Laws/Step.lean ====
section
/-! SUPPORT. What one step can do, said once. -/

namespace Sys2Proof.Machine

theorem step_halted {s : State} (h : s.phase = .halted) : step s = .next s := by simp [step, h]

theorem step_idle {s : State} (h : s.phase = .idle) : step s = .next s.fetchPhase := by simp [step, h]

theorem step_fetched {s : State} {line : Line} (h : s.phase = .fetched line) : step s = .next (s.decodeLine line) := by
  simp [step, h]

theorem step_decoded {s : State} {mnem line : Line} {ops : List Line} {i : Instr} (h : s.phase = .decoded mnem ops)
    (hp : s.prog[s.pc]? = some line) (hi : instrOfTokens mnem ops = .ok i) : step s = exec i s := by
  simp only [step, h, hp, hi]

theorem step_unknown {s : State} {mnem line : Line} {ops : List Line} {r : DecodeReject}
    (h : s.phase = .decoded mnem ops) (hp : s.prog[s.pc]? = some line) (hi : instrOfTokens mnem ops = .error r) :
    step s = .next (s.errorHalt .unknownInstruction) := by
  simp only [step, h, hp, hi]

/-- Everything a step that answers a next state can have done. -/
theorem step_cases {s t : State} (h : step s = .next t) :
    (s.phase = .halted ∧ t = s) ∨
    (s.phase = .idle ∧ s.prog[s.pc]? = none ∧ t = s.haltPastEnd) ∨
    (∃ line, s.phase = .idle ∧ s.prog[s.pc]? = some line ∧ t = s.fetchLine line) ∨
    (∃ line, s.phase = .fetched line ∧ t = s.decodeLine line) ∨
    (∃ mnem ops i adv u, s.phase = .decoded mnem ops ∧ instrOfTokens mnem ops = .ok i ∧
      BodyEffect i s adv u ∧ t = s.epilogue adv u) ∨
    (∃ mnem ops e, s.phase = .decoded mnem ops ∧ e ≠ .none ∧ t = s.errorHalt e) := by
  cases hp : s.phase with
  | halted =>
    rw [step_halted hp] at h
    exact .inl ⟨rfl, (Host.Outcome.next.inj h).symm⟩
  | idle =>
    rw [step_idle hp] at h
    obtain rfl := Host.Outcome.next.inj h
    cases hl : s.prog[s.pc]? with
    | none => exact .inr (.inl ⟨rfl, rfl, by simp [State.fetchPhase, hl]⟩)
    | some line => exact .inr (.inr (.inl ⟨line, rfl, rfl, by simp [State.fetchPhase, hl]⟩))
  | fetched line =>
    rw [step_fetched hp] at h
    exact .inr (.inr (.inr (.inl ⟨line, rfl, (Host.Outcome.next.inj h).symm⟩)))
  | decoded mnem ops =>
    cases hl : s.prog[s.pc]? with
    | none => simp [step, hp, hl] at h
    | some line =>
      cases hi : instrOfTokens mnem ops with
      | error r =>
        rw [step_unknown hp hl hi] at h
        exact .inr (.inr (.inr (.inr (.inr ⟨mnem, ops, .unknownInstruction, rfl, by decide,
          (Host.Outcome.next.inj h).symm⟩))))
      | ok i =>
        rw [step_decoded hp hl hi] at h
        rcases exec_cases i s with ⟨adv, u, hx, hb⟩ | ⟨e, he, hx⟩
        · rw [hx] at h
          exact .inr (.inr (.inr (.inr (.inl ⟨mnem, ops, i, adv, u, rfl, hi, hb,
            (Host.Outcome.next.inj h).symm⟩))))
        · rw [hx] at h
          exact .inr (.inr (.inr (.inr (.inr ⟨mnem, ops, e, rfl, he, (Host.Outcome.next.inj h).symm⟩))))

/-- A step stops the model only where no line stands at PC in phase Decoded. -/
theorem step_answers_next {s : State} (h : ∀ mnem ops, s.phase = .decoded mnem ops → s.prog[s.pc]? ≠ none) :
    ∃ t, step s = .next t := by
  cases hp : s.phase with
  | halted => exact ⟨_, step_halted hp⟩
  | idle => exact ⟨_, step_idle hp⟩
  | fetched line => exact ⟨_, step_fetched hp⟩
  | decoded mnem ops =>
    cases hl : s.prog[s.pc]? with
    | none => exact absurd hl (h mnem ops hp)
    | some line =>
      cases hi : instrOfTokens mnem ops with
      | error r => exact ⟨_, step_unknown hp hl hi⟩
      | ok i => rw [step_decoded hp hl hi]; exact exec_answers_next i s

end Sys2Proof.Machine
end

