-- ==== Sys2Proof/Laws/Rules.lean ====
section
/-! SUPPORT. How the shapes of spec rules in Sys2Proof/Safety.lean follow from the shared bodies: one lemma for each part
of a rule, which the proof about an instruction puts together. -/

namespace Sys2Proof.Machine

/-! ### How an execute phase ends -/

theorem errorHalted_errorHalt (s : State) (e : ErrCode) : ErrorHalted s (s.errorHalt e) e :=
  ⟨rfl, rfl, rfl, rfl, rfl, rfl, rfl, rfl, rfl, rfl, rfl, rfl⟩

theorem haltsWith_of_exec {i : Instr} {s : State} {e : ErrCode} (h : exec i s = .next (s.errorHalt e)) :
    HaltsWith i s e :=
  ⟨_, h, errorHalted_errorHalt s e⟩

/-- The epilogue that goes on to PC + 1, after a body that wrote no more than ACC, the flags and MEM. -/
theorem completed_sequential {s t : State} (h : t = { s with acc := t.acc, flags := t.flags, mem := t.mem }) :
    Completed s (s.epilogue .sequential t) (s.pc + 1) := by
  rw [h]
  exact ⟨rfl, rfl, rfl, rfl, rfl, rfl, rfl, rfl, rfl⟩

theorem completed_jumped (s : State) (n : Nat) : Completed s (s.epilogue .jumped (s.setPc n)) n :=
  ⟨rfl, rfl, rfl, rfl, rfl, rfl, rfl, rfl, rfl⟩

/-! ### Errors of operand resolution -/

theorem resolveOne_of_noSingleOperand {ops : List Operand} (h : noSingleOperand ops = true) :
    resolveOne ops = .error .syntaxError := by
  match ops, h with
  | [.immediate i], h => simp_all [noSingleOperand, resolveOne]
  | [.unresolved _], _ => rfl
  | [.malformed _], _ => rfl
  | [], _ => rfl
  | a :: _ :: _, _ => cases a <;> rfl

/-- The errors of an instruction whose body reads its operand's cell. -/
theorem directErrors_of_readBody {mk : List Operand → Instr} {use : State → Word → Except ErrCode State}
    (h : ∀ ops s, exec (mk ops) s = execute (readBody ops use) s) : DirectErrors mk := by
  refine ⟨fun s ops ho => ?_, fun s i hi => ?_, fun s a ha => ?_⟩ <;>
    refine haltsWith_of_exec ?_ <;> rw [h, execute_eq]
  · simp [readBody, readOperand, resolveDirect, resolveOne_of_noSingleOperand ho, Except.bind]
  · simp [readBody, readOperand, resolveDirect, resolveOne_immediate hi, Except.bind]
  · simp [readBody, readOperand_invalid ha, Except.bind]

/-! ### Compiled lines -/

/-- A mnemonic with one operand token that reads back as its operand. -/
theorem lineDecodes_of_token {m : Mnemonic} {mk : List Operand → Instr} {o : Operand} (hmk : m.instr [o] = mk [o])
    (hs : ∀ c ∈ o.token, isSpace c = false) (hn : o.token ≠ []) (hc : ',' ∉ o.token)
    (hp : parseOperand o.token = o) : LineDecodes m mk o := by
  have h1 : compiledLine m.name [o.token] = m.name ++ ' ' :: o.token := by simp [compiledLine, joinTokens]
  have ht : trim (m.name ++ ' ' :: o.token) = m.name ++ ' ' :: o.token := by
    refine trim_of_ends (fun c hc => ?_) (fun c hc => ?_)
    · refine m.name_no_space c ?_
      cases hm : m.name with
      | nil => exact absurd hm m.name_ne_nil
      | cons x xs => rw [hm] at hc; simp at hc; simp [hc]
    · refine hs c ?_
      have h2 : m.name ++ ' ' :: o.token = (m.name ++ [' ']) ++ o.token := by simp
      rw [h2, List.getLast?_append_of_ne_nil _ hn] at hc
      exact List.mem_of_getLast? hc
  simp only [LineDecodes, h1, decode, split, ht, splitWord_space m.name_no_space (trim_space_cons hs), m.upper_name,
    instrOfTokens, splitOperands_single hn hc, Mnemonic.ofName_name, trim_of_no_space hs]
  simp [hp, hmk]

theorem directToken_chars (a : Int) : ∀ c ∈ (Operand.direct a).token, isSpace c = false ∧ c ≠ ',' := by
  intro c hc
  simp only [Operand.token, List.mem_cons, List.mem_append, List.not_mem_nil, or_false] at hc
  rcases hc with rfl | hc | rfl
  · decide
  · refine ⟨renderInt_no_space a c hc, ?_⟩
    rintro rfl
    exact renderInt_avoids (by decide) (by decide) hc
  · decide

theorem lineDecodes_direct {m : Mnemonic} {mk : List Operand → Instr} (hmk : ∀ o, m.instr [o] = mk [o]) (a : Int) :
    LineDecodes m mk (.direct a) :=
  lineDecodes_of_token (hmk _) (fun c hc => (directToken_chars a c hc).1) (by simp [Operand.token])
    (fun hc => (directToken_chars a _ hc).2 rfl) (parseOperand_direct_token a)

theorem lineDecodes_immediate {m : Mnemonic} {mk : List Operand → Instr} (hmk : ∀ o, m.instr [o] = mk [o]) (i : Int) :
    LineDecodes m mk (.immediate i) :=
  lineDecodes_of_token (hmk _) (renderInt_no_space i) (renderInt_ne_nil i) (renderInt_avoids (by decide) (by decide))
    (parseOperand_immediate_token i)

/-- A mnemonic alone on its line. -/
theorem decode_name (m : Mnemonic) : decode m.name = .ok (m.instr []) := by
  simp only [decode, split, trim_of_no_space m.name_no_space, splitWord_alone m.name_no_space, m.upper_name]
  simp [instrOfTokens, splitOperands]

/-! ### Display words -/

theorem displayWord16_toNat {op f : Nat} (h : op ≤ 15) (hf : f ≤ 4095) :
    (displayWord16 op f).toNat = op * 4096 + f := by
  simp only [displayWord16, BitVec.toNat_append, BitVec.toNat_ofNat]
  rw [Nat.mod_eq_of_lt (by omega), Nat.mod_eq_of_lt (by omega), ← Nat.shiftLeft_add_eq_or_of_lt (by omega),
    Nat.shiftLeft_eq]

theorem displayWord32_toNat {op : Nat} (imm : Word) (h : op ≤ 15) :
    (displayWord32 imm op).toNat = imm.toNat * 65536 + op * 4096 := by
  simp only [displayWord32, BitVec.toNat_append, BitVec.toNat_ofNat]
  rw [Nat.mod_eq_of_lt (by omega), ← Nat.shiftLeft_add_eq_or_of_lt (by omega),
    ← Nat.shiftLeft_add_eq_or_of_lt (by omega), Nat.shiftLeft_eq, Nat.shiftLeft_eq]
  simp
  omega

theorem shownAs_direct (m : Mnemonic) (a : Nat) (h : a ≤ 4095) : ShownAs m (.direct (a : Int)) a := by
  intro opcodeOf ho
  refine ⟨displayWord16 (opcodeOf m) a, ?_, displayWord16_toNat ho h⟩
  simp only [displayEncode]
  rw [if_neg (by omega), if_neg (by omega)]
  simp

theorem shownAs_immediate (m : Mnemonic) (i : Nat) (h : i ≤ 4095) : ShownAs m (.immediate (i : Int)) i := by
  intro opcodeOf ho
  refine ⟨displayWord16 (opcodeOf m) i, ?_, displayWord16_toNat ho h⟩
  simp only [displayEncode]
  rw [if_neg (by omega), if_pos (by omega)]
  simp

theorem shownAs_none (m : Mnemonic) : ShownAs m .none 0 := by
  intro opcodeOf ho
  refine ⟨displayWord16 (opcodeOf m) 0, ?_, displayWord16_toNat ho (by omega)⟩
  simp only [displayEncode]
  rw [if_neg (by omega)]

theorem mnemonicOfOpcode_some {opcodeOf : Mnemonic → Nat} {op : Nat} {m : Mnemonic}
    (h : mnemonicOfOpcode opcodeOf op = some m) : opcodeOf m = op := by
  simpa using List.find?_some h

theorem mnemonicOfOpcode_none {opcodeOf : Mnemonic → Nat} {op : Nat} (h : mnemonicOfOpcode opcodeOf op = none)
    (m : Mnemonic) : opcodeOf m ≠ op := by
  simpa using List.find?_eq_none.1 h m m.mem_all

theorem mnemonicOfOpcode_of_injective {opcodeOf : Mnemonic → Nat} (hi : Function.Injective opcodeOf) (m : Mnemonic) :
    mnemonicOfOpcode opcodeOf (opcodeOf m) = some m := by
  cases h : mnemonicOfOpcode opcodeOf (opcodeOf m) with
  | none => exact absurd rfl (mnemonicOfOpcode_none h m)
  | some k => rw [hi (mnemonicOfOpcode_some h)]

/-- Whatever DISPLAY_OPCODE is, a table word with a mnemonic's opcode and a field that is not zero is read as that
mnemonic with a Direct operand. -/
theorem decodeTableWord_direct {m : Mnemonic} {f : Nat} (ho : displayOpcode m ≤ 15) (h0 : 0 < f) (hf : f ≤ 4095) :
    decodeTableWord 16 (displayOpcode m * 4096 + f) = some (m.instr [.direct (f : Int)]) := by
  have h1 : ((BitVec.ofNat 16 (displayOpcode m * 4096 + f)).extractLsb' 12 4).toNat = displayOpcode m := by
    simp only [BitVec.extractLsb'_toNat, BitVec.toNat_ofNat, Nat.shiftRight_eq_div_pow]; omega
  have h2 : ((BitVec.ofNat 16 (displayOpcode m * 4096 + f)).extractLsb' 0 12).toNat = f := by
    simp only [BitVec.extractLsb'_toNat, BitVec.toNat_ofNat, Nat.shiftRight_eq_div_pow]; omega
  simp only [decodeTableWord, if_true, displayDecode16, h1, h2, if_neg (show ¬ f = 0 by omega),
    mnemonicOfOpcode_of_injective displayOpcode_injective m, Option.map_some, instrOfDisplay]

/-! ### The rules of whole instructions -/

theorem readRule_of_body {m : Mnemonic} {mk : List Operand → Instr} {newAcc : Word → Word → Word}
    {newFlags : Flags → Word → Word → Flags} {use : State → Word → Except ErrCode State}
    (hmk : ∀ o, m.instr [o] = mk [o]) (h : ∀ ops s, exec (mk ops) s = execute (readBody ops use) s)
    (hu : ∀ s w, use s w = .ok { s with acc := newAcc s.acc w, flags := newFlags s.flags s.acc w }) :
    ReadRule m mk newAcc newFlags where
  encoded := ⟨lineDecodes_direct hmk, shownAs_direct m⟩
  errors := directErrors_of_readBody h
  completes := fun s a ha => by
    have hx : exec (mk [.direct a]) s = .next (s.epilogue .sequential
        { s with acc := newAcc s.acc (s.mem.get a.toNat), flags := newFlags s.flags s.acc (s.mem.get a.toNat) }) := by
      rw [h, execute_eq, readBody_valid ha, hu]; rfl
    exact ⟨_, hx, completed_sequential rfl, rfl, rfl, rfl, fun _ => rfl⟩

theorem bareRule_of_body {m : Mnemonic} {mk : List Operand → Instr} {newAcc : Word → Word} (hmk : m.instr [] = mk [])
    (h : ∀ ops s, exec (mk ops) s = execute (noneBody ops .sequential (fun s => s.setAcc (newAcc s.acc))) s) :
    BareRule m mk newAcc where
  line := hmk ▸ decode_name m
  shown := shownAs_none m
  completes := fun _ => ⟨_, h _ _, completed_sequential rfl, rfl, rfl, rfl, fun _ => rfl⟩
  operands := fun s ops ho => by
    refine haltsWith_of_exec ?_
    rw [h]
    cases ops with
    | nil => exact absurd rfl ho
    | cons o rest => rfl

theorem execute_extendedBody {body : State → BodyResult} {s : State} (h : s.extJumps = true) :
    execute (extendedBody body) s = execute body s := by
  simp [extendedBody, h]

theorem jumpRule_of_body {m : Mnemonic} {mk : List Operand → Instr} {implemented : State → Prop} {cond : State → Bool}
    (hmk : ∀ o, m.instr [o] = mk [o])
    (h : ∀ ops s, implemented s → exec (mk ops) s = execute (jumpBody cond ops) s) :
    JumpRule m mk implemented cond where
  lineImmediate := lineDecodes_immediate hmk
  lineDirect := lineDecodes_direct hmk
  shownImmediate := shownAs_immediate m
  shownDirect := shownAs_direct m
  takenImmediate := fun s i hs hi hc h0 => by
    have hx : exec (mk [.immediate i]) s = .next (s.epilogue .jumped (s.setPc i.toNat)) := by
      rw [h _ _ hs, execute_eq]
      simp [jumpBody, readTarget_immediate hi, Except.bind, hc, show ¬ i < 0 by omega]
    exact ⟨_, hx, completed_jumped s _, rfl, rfl, rfl, fun _ => rfl⟩
  takenNegative := fun s i hs hi hc h0 => by
    refine haltsWith_of_exec ?_
    rw [h _ _ hs, execute_eq]
    simp [jumpBody, readTarget_immediate hi, Except.bind, hc, h0]
  notTakenImmediate := fun s i hs hi hc => by
    have hx : exec (mk [.immediate i]) s = .next (s.epilogue .sequential s) := by
      rw [h _ _ hs, execute_eq]
      simp [jumpBody, readTarget_immediate hi, Except.bind, hc]
    exact ⟨_, hx, completed_sequential rfl, rfl, rfl, rfl, fun _ => rfl⟩
  takenDirect := fun s a hs ha hc => by
    have hx : exec (mk [.direct a]) s = .next (s.epilogue .jumped (s.setPc (s.mem.get a.toNat).toNat)) := by
      rw [h _ _ hs, execute_eq]
      simp [jumpBody, readTarget_direct ha, Except.bind, hc]
      rw [if_neg (by omega)]
      rfl
    exact ⟨_, hx, completed_jumped s _, rfl, rfl, rfl, fun _ => rfl⟩
  notTakenDirect := fun s a hs ha hc => by
    have hx : exec (mk [.direct a]) s = .next (s.epilogue .sequential s) := by
      rw [h _ _ hs, execute_eq]
      simp [jumpBody, readTarget_direct ha, Except.bind, hc]
    exact ⟨_, hx, completed_sequential rfl, rfl, rfl, rfl, fun _ => rfl⟩
  bounds := fun s a hs ha => by
    refine haltsWith_of_exec ?_
    rw [h _ _ hs, execute_eq]
    simp [jumpBody, readTarget_direct_invalid ha, Except.bind]
  operands := fun s ops hs ho => by
    refine haltsWith_of_exec ?_
    rw [h _ _ hs, execute_eq]
    simp [jumpBody, readTarget, resolveOne_of_noSingleOperand ho, Except.bind]

/-! ### The trace -/

/-- Appending one entry counts it under its own tag. -/
theorem countTag_of_append {s t : State} {e : HistEntry} (h : t.hist = s.hist ++ [e]) (g : PhaseTag) :
    t.countTag g = s.countTag g + if e.phase = g then 1 else 0 := by
  simp only [State.countTag, h, List.filter_append, List.length_append]
  by_cases hg : e.phase = g <;> simp [hg]

/-! ### The staged instruction -/

theorem putLine_get (prog : List Line) (n : Nat) (line : Line) : (putLine prog n line)[n]? = some line := by
  induction prog generalizing n with
  | nil =>
    induction n with
    | zero => rfl
    | succ k ih => simpa [putLine] using ih
  | cons l rest ih =>
    cases n with
    | zero => rfl
    | succ k => simpa [putLine] using ih k

theorem step_stageLine {s : State} {line : Line} {i : Instr} (h : decode line = .ok i) :
    step (s.stageLine line) = exec i (s.stageLine line) :=
  step_decoded (line := line) rfl (putLine_get s.prog s.pc line) h

theorem decode_encode_instrOfDisplay (m : Mnemonic) (o : DisplayOperand) :
    decode (encode (instrOfDisplay m o)) = .ok (instrOfDisplay m o) := by
  have h0 : decode (encode (m.instr [])) = .ok (m.instr []) := by simpa [encode, compiledLine] using decode_name m
  have h1 : ∀ i : Int, decode (encode (m.instr [.immediate i])) = .ok (m.instr [.immediate i]) := fun i => by
    simpa [encode, LineDecodes] using lineDecodes_immediate (m := m) (mk := m.instr) (fun _ => rfl) i
  have h2 : ∀ a : Int, decode (encode (m.instr [.direct a])) = .ok (m.instr [.direct a]) := fun a => by
    simpa [encode, LineDecodes] using lineDecodes_direct (m := m) (mk := m.instr) (fun _ => rfl) a
  cases o with
  | none => cases hc : m.operandClass <;> simpa [instrOfDisplay, hc] using h0
  | direct a => cases hc : m.operandClass <;> simpa [instrOfDisplay, hc] using h2 a
  | immediate i =>
    cases hc : m.operandClass with
    | n =>
      by_cases hi : i = 0
      · simpa [instrOfDisplay, hc, hi] using h0
      · simpa [instrOfDisplay, hc, hi] using h1 i
    | d => simpa [instrOfDisplay, hc] using h1 i
    | i => simpa [instrOfDisplay, hc] using h1 i
    | j => simpa [instrOfDisplay, hc] using h1 i

/-- Every instruction a table word stands for has a compiled line that decodes to it. -/
theorem decode_encode_of_decodeTableWord {nbits w : Nat} {i : Instr} (h : decodeTableWord nbits w = some i) :
    decode (encode i) = .ok i := by
  simp only [decodeTableWord] at h
  split_ifs at h <;> obtain ⟨p, -, rfl⟩ := Option.map_eq_some_iff.1 h <;> exact decode_encode_instrOfDisplay _ _

/-- The very next step runs the instruction of a table word, whenever the word stands for one. -/
theorem step_withFetchWord {s : State} {nbits w : Nat} {i : Instr} (hi : decodeTableWord nbits w = some i) :
    step (s.withFetchWord nbits w) = exec i (s.withFetchWord nbits w) := by
  simp only [State.withFetchWord, tableLine, hi]
  exact step_stageLine (decode_encode_of_decodeTableWord hi)

end Sys2Proof.Machine
end

