-- ==== Sys2Proof/Tests/Slice0.lean ====
section
/-! SUPPORT. The model's own tests and the witnesses of the statements' hypotheses. Every expected value is one of
spec/95_test_vectors.md (its id stands beside the test) or is written out by hand from the rule named. -/

namespace Sys2Proof.Tests

open Sys2Proof Sys2Proof.Machine

/-! ## Helpers -/

/-- The flags as spec/95_test_vectors.md writes them, `ZCVN = z c v n`. -/
def zcvn (z c v n : Nat) : Flags := ⟨z == 1, c == 1, v == 1, n == 1⟩

/-- The vectors' context: MEM_SIZE = 16, PC = 4, NPROG = 14, every cell not listed 0. -/
def cpu (acc : Nat) (flags : Flags) (cells : List MemCell) (ext : Bool := false) : State :=
  { State.construct 16 (fun _ => 0#16) ext with
    acc := BitVec.ofNat 16 acc, pc := 4, flags := flags, mem := ⟨16, cells⟩, prog := List.replicate 14 [] }

/-- What a test looks at: ACC, the flags, PC, CYCLES, ERR. -/
def seen : Result → Option (Nat × Flags × Nat × Nat × ErrCode)
  | .next t => some (t.acc.toNat, t.flags, t.pc, t.cycles, t.err)
  | _ => none

/-- The execute phase of a line. -/
def after (s : State) (line : String) : Option (Nat × Flags × Nat × Nat × ErrCode) :=
  seen (step (s.stageLine line.toList))

/-- A cell, and whether the core has halted, after the execute phase of a line. -/
def cellAfter (s : State) (line : String) (a : Nat) : Option (Nat × Bool) :=
  match step (s.stageLine line.toList) with
  | .next t => some ((t.mem.get a).toNat, t.halted)
  | _ => none

/-! ## Decoding: lines written out from 30_encoding.md R61, R62, R65, one for each constructor at least -/

theorem test_decode_arithmetic :
    decode "ADD [16]".toList = .ok (.add [.direct 16]) ∧ decode "SUB 0x10".toList = .ok (.sub [.direct 16]) ∧
    decode "MUL [0b101]".toList = .ok (.mul [.direct 5]) ∧ decode "DIV [ 7 ]".toList = .ok (.div [.direct 7]) := by
  decide

theorem test_decode_logic :
    decode "AND [3]".toList = .ok (.and [.direct 3]) ∧ decode "OR 0X1f".toList = .ok (.or [.direct 31]) ∧
    decode "XOR [-0x10]".toList = .ok (.xor [.direct (-16)]) ∧ decode "NOT".toList = .ok (.not []) := by
  decide

theorem test_decode_transfer_and_compare :
    decode "LDA 0x0A".toList = .ok (.lda [.direct 10]) ∧ decode "STA [0]".toList = .ok (.sta [.direct 0]) ∧
    decode "  LDI   5  ".toList = .ok (.ldi [.immediate 5]) ∧ decode "CMP [1]".toList = .ok (.cmp [.direct 1]) := by
  decide

theorem test_decode_control :
    decode "JMP\tloop".toList = .ok (.jmp [.unresolved "loop".toList]) ∧
    decode "JZ 12".toList = .ok (.jz [.immediate 12]) ∧ decode "JNZ [2]".toList = .ok (.jnz [.direct 2]) ∧
    decode "JC 9".toList = .ok (.jc [.immediate 9]) ∧ decode "jnc 007".toList = .ok (.jnc [.immediate 7]) ∧
    decode "JV 3".toList = .ok (.jv [.immediate 3]) ∧ decode "JNV 0".toList = .ok (.jnv [.immediate 0]) ∧
    decode "JN 0".toList = .ok (.jn [.immediate 0]) ∧ decode "JNN -1".toList = .ok (.jnn [.immediate (-1)]) ∧
    decode "HALT".toList = .ok (.halt []) ∧ decode "NOP".toList = .ok (.nop []) := by
  decide

/-- E1, E2, E4, E5: what is no instruction, and what is one with the wrong operands. -/
theorem test_decode_rejects_by_name :
    decode "FOO [1]".toList = .error (.unknownMnemonic "FOO".toList) ∧ decode [] = .error (.unknownMnemonic []) ∧
    decode "ADD 5, 6".toList = .ok (.add [.immediate 5, .immediate 6]) ∧
    decode "ADD [0],".toList = .ok (.add [.direct 0, .malformed []]) := by
  decide

/-- The encoder's text for a few instructions, written out from R61 and R84. -/
theorem test_encode :
    encode (.add [.direct 16]) = "ADD [16]".toList ∧ encode (.ldi [.immediate (-5)]) = "LDI -5".toList ∧
    encode (.halt []) = "HALT".toList ∧ encode (.jmp [.immediate 1000]) = "JMP 1000".toList := by
  decide

/-! ## Well-formedness: an ill-formed term for each check -/

theorem test_wf_directForm :
    (Instr.add [.immediate 5]).wf = false ∧ (Instr.sta []).wf = false ∧ (Instr.cmp [.direct 0, .direct 1]).wf = false ∧
    (Instr.lda [.malformed []]).wf = false ∧ (Instr.add [.direct 0]).wf = true := by
  decide

theorem test_wf_immediateForm :
    (Instr.ldi [.direct 5]).wf = false ∧ (Instr.ldi []).wf = false ∧ (Instr.ldi [.unresolved ['x']]).wf = false ∧
    (Instr.ldi [.immediate 5]).wf = true := by
  decide

theorem test_wf_targetForm :
    (Instr.jmp []).wf = false ∧ (Instr.jz [.unresolved ['x']]).wf = false ∧
    (Instr.jc [.immediate 9223372036854775808]).wf = false ∧ (Instr.jnn [.direct 2]).wf = true := by
  decide

theorem test_wf_emptyForm :
    (Instr.not [.direct 1]).wf = false ∧ (Instr.halt [.immediate 0]).wf = false ∧
    (Instr.nop [.immediate 1]).wf = false ∧ (Instr.nop []).wf = true := by
  decide

theorem test_wf_inI64 :
    (Instr.ldi [.immediate (-9223372036854775809)]).wf = false ∧
    (Instr.ldi [.immediate (-9223372036854775808)]).wf = true ∧
    (Instr.ldi [.immediate 9223372036854775807]).wf = true := by
  decide

/-! ## Text: the operand parser, split, the flag rule (sections 2.1 and 2.2 of the vectors) -/

/-- O4, O6, O7, O10, O13, O14, O16, O17. -/
theorem test_parseOperand :
    parseOperand "0X1f".toList = .direct 31 ∧ parseOperand "007".toList = .immediate 7 ∧
    parseOperand "-5".toList = .immediate (-5) ∧ parseOperand "[0B101]".toList = .direct 5 ∧
    parseOperand "-0x10".toList = .unresolved "-0x10".toList ∧ parseOperand "+5".toList = .unresolved "+5".toList ∧
    parseOperand "[loop]".toList = .malformed "[loop]".toList ∧ parseOperand "0x".toList = .malformed "0x".toList := by
  decide

/-- S1, S4, S6. -/
theorem test_split :
    split "add [0]".toList = ("ADD".toList, ["[0]".toList]) ∧
    split "ADD [0], [1]".toList = ("ADD".toList, ["[0]".toList, "[1]".toList]) ∧ split [] = ([], []) := by
  decide

/-- F1, F3, F4, F5. -/
theorem test_updateFlags_add :
    updateFlags 0 .add = zcvn 1 0 0 0 ∧ updateFlags 32767 .add = zcvn 0 0 0 0 ∧
    updateFlags 32768 .add = zcvn 0 0 1 0 ∧ updateFlags 65536 .add = zcvn 0 0 1 0 := by
  decide

/-- F6, F9, F10, F11. -/
theorem test_updateFlags_sub :
    updateFlags 0 .sub = zcvn 1 0 0 0 ∧ updateFlags (-32768) .sub = zcvn 0 0 0 1 ∧
    updateFlags (-32769) .sub = zcvn 0 0 1 1 ∧ updateFlags 65535 .sub = zcvn 0 1 1 0 := by
  decide

/-! ## Instructions (sections 2.3 to 2.7 of the vectors) -/

/-- T2. -/
theorem test_add_wraps : after (cpu 0xFFFF (zcvn 0 0 0 0) [(0, 1#16)]) "ADD [0]" = some (0, zcvn 0 0 1 0, 5, 1, .none) := by
  decide

/-- T3. -/
theorem test_add_immediate_halts :
    after (cpu 1 (zcvn 0 0 0 0) []) "ADD 5" = some (1, zcvn 0 0 0 0, 4, 0, .modeMismatch) := by
  decide

/-- T14. -/
theorem test_sub_overflows :
    after (cpu 0 (zcvn 0 0 0 0) [(0, 0x8001#16)]) "SUB [0]" = some (0x7FFF, zcvn 0 0 1 1, 5, 1, .none) := by
  decide

/-- T13. -/
theorem test_sub_carry : after (cpu 5 (zcvn 0 0 0 0) [(0, 3#16)]) "SUB [0]" = some (2, zcvn 0 1 0 0, 5, 1, .none) := by
  decide

/-- T19. -/
theorem test_mul_low_half :
    after (cpu 0xFFFF (zcvn 0 0 0 0) [(0, 0xFFFF#16)]) "MUL [0]" = some (1, zcvn 0 0 0 0, 5, 1, .none) := by
  decide

/-- T20. -/
theorem test_mul_keeps_flags : after (cpu 1234 (zcvn 0 1 0 1) []) "MUL [0]" = some (0, zcvn 0 1 0 1, 5, 1, .none) := by
  decide

/-- T21a. -/
theorem test_div_floors : after (cpu 7 (zcvn 0 0 0 0) [(0, 2#16)]) "DIV [0]" = some (3, zcvn 0 0 0 0, 5, 1, .none) := by
  decide

/-- T21d. -/
theorem test_div_by_zero : after (cpu 7 (zcvn 1 0 0 0) []) "DIV [0]" = some (7, zcvn 1 0 0 0, 4, 0, .divByZero) := by
  decide

/-- T22. -/
theorem test_and :
    after (cpu 0x0F0F (zcvn 0 0 0 0) [(3, 0x00FF#16)]) "AND [3]" = some (0x000F, zcvn 0 0 0 0, 5, 1, .none) := by
  decide

/-- T24. -/
theorem test_or :
    after (cpu 0x0F0F (zcvn 0 0 0 0) [(3, 0x00FF#16)]) "OR [3]" = some (0x0FFF, zcvn 0 0 0 0, 5, 1, .none) := by
  decide

/-- T25. -/
theorem test_xor :
    after (cpu 0x0F0F (zcvn 0 0 0 0) [(3, 0x00FF#16)]) "XOR [3]" = some (0x0FF0, zcvn 0 0 0 0, 5, 1, .none) := by
  decide

/-- T25c. -/
theorem test_not : after (cpu 0x1234 (zcvn 0 0 0 0) []) "NOT" = some (0xEDCB, zcvn 0 0 0 0, 5, 1, .none) := by
  decide

/-- T25e. -/
theorem test_not_operand_halts :
    after (cpu 0 (zcvn 0 0 0 0) []) "NOT [1]" = some (0, zcvn 0 0 0 0, 4, 0, .syntaxError) := by
  decide

/-- T26b. -/
theorem test_lda :
    after (cpu 0 (zcvn 1 0 0 0) [(10, 0x8000#16)]) "LDA 0x0A" = some (0x8000, zcvn 1 0 0 0, 5, 1, .none) := by
  decide

/-- T26c. -/
theorem test_lda_past_the_end_halts :
    after (cpu 0 (zcvn 0 0 0 0) []) "LDA [0x10]" = some (0, zcvn 0 0 0 0, 4, 0, .outOfBounds) := by
  decide

/-- T27. -/
theorem test_sta : cellAfter (cpu 0xBEEF (zcvn 0 0 0 0) []) "STA [2]" 2 = some (0xBEEF, false) := by decide

/-- T28. -/
theorem test_sta_immediate_halts : cellAfter (cpu 7 (zcvn 0 0 0 0) []) "STA 2" 2 = some (0, true) := by decide

/-- T29e. -/
theorem test_ldi_masks :
    after (cpu 0 (zcvn 0 0 0 0) []) "LDI -65537" = some (0xFFFF, zcvn 0 0 0 0, 5, 1, .none) := by
  decide

/-- T30c. -/
theorem test_ldi_outside_i64_halts :
    after (cpu 0 (zcvn 0 0 0 0) []) "LDI 9223372036854775808" = some (0, zcvn 0 0 0 0, 4, 0, .syntaxError) := by
  decide

/-- T31. -/
theorem test_cmp_less : after (cpu 5 (zcvn 0 0 0 0) [(1, 9#16)]) "CMP [1]" = some (5, zcvn 0 0 0 1, 5, 1, .none) := by
  decide

/-- T35. -/
theorem test_cmp_unsigned :
    after (cpu 0xFFFF (zcvn 0 0 0 0) [(1, 1#16)]) "CMP [1]" = some (0xFFFF, zcvn 0 1 1 0, 5, 1, .none) := by
  decide

/-- J2. -/
theorem test_jmp_through_memory :
    after (cpu 0 (zcvn 0 0 0 0) [(2, 6#16)]) "JMP 0x02" = some (0, zcvn 0 0 0 0, 6, 1, .none) := by
  decide

/-- J4. -/
theorem test_jmp_negative_halts :
    after (cpu 0 (zcvn 0 0 0 0) []) "JMP -1" = some (0, zcvn 0 0 0 0, 4, 0, .outOfBounds) := by
  decide

/-- J7. -/
theorem test_jz_not_taken_negative :
    after (cpu 0 (zcvn 0 0 0 0) []) "JZ -1" = some (0, zcvn 0 0 0 0, 5, 1, .none) := by
  decide

/-- J9. -/
theorem test_jz_reads_its_target_first :
    after (cpu 0 (zcvn 0 0 0 0) []) "JZ [99]" = some (0, zcvn 0 0 0 0, 4, 0, .outOfBounds) := by
  decide

/-- J10. -/
theorem test_jnz_taken : after (cpu 0 (zcvn 0 1 1 1) []) "JNZ 0" = some (0, zcvn 0 1 1 1, 0, 1, .none) := by decide

/-- J11. -/
theorem test_jnz_not_taken : after (cpu 0 (zcvn 1 0 0 0) []) "JNZ 0" = some (0, zcvn 1 0 0 0, 5, 1, .none) := by decide

/-- J12. -/
theorem test_jc_taken : after (cpu 0 (zcvn 0 1 0 0) []) "JC 9" = some (0, zcvn 0 1 0 0, 9, 1, .none) := by decide

/-- J13. -/
theorem test_jc_not_taken : after (cpu 0 (zcvn 1 0 1 1) []) "JC 9" = some (0, zcvn 1 0 1 1, 5, 1, .none) := by decide

/-- J14. -/
theorem test_jnc_taken : after (cpu 0 (zcvn 1 0 1 1) []) "JNC 9" = some (0, zcvn 1 0 1 1, 9, 1, .none) := by decide

/-- J15. -/
theorem test_jnc_not_taken : after (cpu 0 (zcvn 0 1 0 0) []) "JNC 9" = some (0, zcvn 0 1 0 0, 5, 1, .none) := by decide

/-- J16, EXT_JUMPS false. -/
theorem test_jv_unknown :
    after (cpu 0 (zcvn 0 0 1 0) []) "JV 3" = some (0, zcvn 0 0 1 0, 4, 0, .unknownInstruction) := by
  decide

/-- J16, EXT_JUMPS true. -/
theorem test_jv_extended : after (cpu 0 (zcvn 0 0 1 0) [] true) "JV 3" = some (0, zcvn 0 0 1 0, 3, 1, .none) := by
  decide

/-- J17, EXT_JUMPS true. -/
theorem test_jnv_extended : after (cpu 0 (zcvn 1 1 0 1) [] true) "JNV 0" = some (0, zcvn 1 1 0 1, 0, 1, .none) := by
  decide

/-- J18, EXT_JUMPS true. -/
theorem test_jn_extended : after (cpu 0 (zcvn 0 0 0 1) [] true) "JN 0" = some (0, zcvn 0 0 0 1, 0, 1, .none) := by
  decide

/-- J19, EXT_JUMPS true. -/
theorem test_jnn_extended : after (cpu 0 (zcvn 1 1 1 0) [] true) "JNN 0" = some (0, zcvn 1 1 1 0, 0, 1, .none) := by
  decide

/-- J23. -/
theorem test_nop : after (cpu 9 (zcvn 1 0 1 0) []) "NOP" = some (9, zcvn 1 0 1 0, 5, 1, .none) := by decide

/-- J24. -/
theorem test_nop_operand_halts :
    after (cpu 9 (zcvn 0 0 0 0) []) "NOP 1" = some (9, zcvn 0 0 0 0, 4, 0, .syntaxError) := by
  decide

/-- J25. -/
theorem test_halt : after (cpu 9 (zcvn 1 0 1 0) []) "HALT" = some (9, zcvn 1 0 1 0, 4, 0, .none) := by decide

/-- J26. -/
theorem test_halt_operand_halts :
    after (cpu 9 (zcvn 0 0 0 0) []) "HALT 0" = some (9, zcvn 0 0 0 0, 4, 0, .syntaxError) := by
  decide

/-- E3: the mnemonic is checked before the operands. -/
theorem test_unknown_mnemonic :
    after (cpu 1 (zcvn 0 0 0 0) []) "FOO 5, 6, x" = some (1, zcvn 0 0 0 0, 4, 0, .unknownInstruction) := by
  decide

/-! ## The assembler (section 2.9) and the display encoding (section 2.10) -/

/-- A1. -/
theorem test_assemble_labels :
    assemble "start: LDI 1 ; one\n\n  ; comment only\nloop:\n  jmp loop\nend:".toList =
      .ok (["LDI 1".toList, "JMP 1".toList], [("start".toList, 0), ("loop".toList, 1), ("end".toList, 2)]) := by
  decide

/-- A2 and A8: the last definition wins, and a second label on a line is no label. -/
theorem test_assemble_duplicate_and_second_label :
    assemble "a: NOP\na: NOP\nJMP a".toList =
      .ok (["NOP".toList, "NOP".toList, "JMP 1".toList], [("a".toList, 1)]) ∧
    assemble "x: y: NOP".toList = .ok (["Y: NOP".toList], [("x".toList, 0)]) := by
  decide

/-- A4 and A5. -/
theorem test_assemble_normalizes :
    assemble "  add   [0] ,  0x1F ".toList = .ok (["ADD [0], 0x1F".toList], []) ∧
    assemble "LDI 5\r\nHALT\r\n".toList = .ok (["LDI 5".toList, "HALT".toList], []) := by
  decide

/-- A9. -/
theorem test_assemble_rejects :
    ["1abc: NOP".toList, "my label: NOP".toList, ": NOP".toList, "JMP a:b".toList].map assemble =
      List.replicate 4 (.error (.syntaxError 1)) := by
  decide

/-- Two DISPLAY_OPCODE maps to test with. -/
def upward (m : Mnemonic) : Nat := m.index
def downward (m : Mnemonic) : Nat := 22 - m.index

/-- X2, X3, X4, X7, X9, X15. -/
theorem test_displayEncode :
    displayEncode upward .add (.direct 0xFFF) = .ok (.w16 0x0FFF#16) ∧
    displayEncode upward .add (.direct 0x1000) = .error .encodingRangeError ∧
    displayEncode upward .add (.direct (-1)) = .error .encodingRangeError ∧
    displayEncode upward .ldi (.immediate 70000) = .ok (.w32 0x1170A000#32) ∧
    displayEncode downward .halt .none = .ok (.w16 0x1000#16) ∧
    displayEncode upward .halt .none = .error .encodingRangeError := by
  decide

/-- X10, X11, X13, X14, X16. -/
theorem test_displayDecode :
    displayDecode16 upward 0x0010#16 = some (.add, .direct 16) ∧
    displayDecode16 upward 0x9000#16 = some (.sta, .immediate 0) ∧
    displayDecode32 upward 0x1170A000#32 = some (.ldi, .immediate 0x1170) ∧
    displayDecode32 upward 0x1170A001#32 = none ∧
    displayDecode16 (fun m => m.index + 1) 0x0010#16 = none := by
  decide

/-- Whatever DISPLAY_OPCODE is, the step after `withFetchWord` runs the instruction of a table word: ADD [16]. -/
theorem test_withFetchWord (s : State) (h : displayOpcode .add ≤ 15) :
    step (s.withFetchWord 16 (displayOpcode .add * 4096 + 16)) =
      exec (.add [.direct 16]) (s.withFetchWord 16 (displayOpcode .add * 4096 + 16)) :=
  step_withFetchWord (decodeTableWord_direct h (by decide) (by decide))

/-! ## The host's operations (section 2.11) -/

/-- P1 loaded into the vectors' context. -/
def loaded : State := (cpu 9 (zcvn 1 1 1 1) [(0, 10#16)]).load
  ["LDI 10".toList, "STA [0]".toList, "LDI 20".toList, "ADD [0]".toList, "HALT".toList]

/-- H3: what load sets and keeps. -/
theorem test_load :
    loaded.acc = 0#16 ∧ loaded.pc = 0 ∧ loaded.flags = zcvn 0 0 0 0 ∧ loaded.mem.get 0 = 10#16 ∧
    loaded.phase = .idle := by
  decide

/-- H4 and H5. -/
theorem test_run :
    (∃ t, run 0 loaded = .next (0, t) ∧ t = loaded) ∧
    ∃ t, run 2 loaded = .next (2, t) ∧ t.phase = .decoded "LDI".toList ["10".toList] ∧
      t.irasm = some "LDI 10".toList ∧ t.hist.length = 2 :=
  ⟨⟨_, rfl, rfl⟩, _, rfl, by decide⟩

/-- H8 and H10. -/
theorem test_host_refusals :
    loaded.hostWrite 16 1 = none ∧ loaded.hostWrite 0 0x10000 = none ∧ loaded.hostExpandWith (fun _ => 1#16) 16 = none ∧
    loaded.hostExpandWith (fun _ => 1#16) 65537 = none := by
  decide

/-- H9, with a given EXPAND_INIT. -/
theorem test_expand :
    (loaded.hostExpandWith (fun a => BitVec.ofNat 16 a) 32).map (fun t => (t.mem.size, t.mem.get 0, t.mem.get 16, t.mem.get 31)) =
      some (32, 10#16, 16#16, 31#16) := by
  decide

/-- What `get_instruction_info` answers beside the opcode, and for a lower-case name (R69, R79). -/
theorem test_instructionInfo :
    (instructionInfo "LDI".toList).map (fun i => (i.roles, i.modes)) = .ok ([.immediateValue], [.immediate]) ∧
    (instructionInfo "jmp".toList).map (fun i => (i.roles, i.modes)) = .error (.unknownMnemonic "jmp".toList) := by
  decide

/-! ## Witnesses: a concrete state and operands that meet the hypotheses of each statement, at the edges of each clause -/

/-- The vectors' context, with one cell listed. -/
def small : State := cpu 5 (zcvn 0 0 0 0) [(0, 3#16)]

/-- The same with EXT_JUMPS and every flag set. -/
def smallExt : State := cpu 5 (zcvn 1 1 1 1) [(0, 3#16)] true

/-- A line fetched, not yet decoded. -/
def fetched : State := small.fetchLine []

/-- An instruction fetched and decoded. -/
def staged (line : String) : State := small.stageLine line.toList

/-- The addresses at the edges of MEM_SIZE = 16. -/
theorem edge_addresses :
    small.validAddress 0 ∧ small.validAddress 15 ∧ ¬ small.validAddress (-1) ∧ ¬ small.validAddress 16 := by
  simp only [State.validAddress]; decide

theorem edge_addresses_ext :
    smallExt.validAddress 0 ∧ smallExt.validAddress 15 ∧ ¬ smallExt.validAddress (-1) ∧ ¬ smallExt.validAddress 16 := by
  simp only [State.validAddress]; decide

/-- Operands that resolve to no single operand, and Immediates at the edges of i64. -/
theorem edge_operands :
    noSingleOperand [] = true ∧ noSingleOperand [.direct 0, .direct 0] = true ∧
    noSingleOperand [.unresolved ['x']] = true ∧ noSingleOperand [.malformed []] = true ∧
    noSingleOperand [.immediate 9223372036854775808] = true ∧
    noSingleOperand [.immediate (-9223372036854775809)] = true ∧
    inI64 9223372036854775807 = true ∧ inI64 (-9223372036854775808) = true := by
  decide

/-- What a class-D statement asks for: its valid and invalid addresses, its Immediates, its other operands. -/
def DirectWitness : Prop :=
  (small.validAddress 0 ∧ small.validAddress 15) ∧ (¬ small.validAddress (-1) ∧ ¬ small.validAddress 16) ∧
  inI64 9223372036854775807 = true ∧ noSingleOperand [] = true ∧ upward .add ≤ 15

theorem directWitness : DirectWitness := by
  refine ⟨?_, ?_, by decide, by decide, by decide⟩
  · exact ⟨edge_addresses.1, edge_addresses.2.1⟩
  · exact edge_addresses.2.2

theorem witness_ResetLeavesTheResetValues : 0 < Config.memSize := Nat.succ_pos _

theorem witness_FetchPastTheEndHaltsNormally :
    ({ small with pc := 14 } : State).phase = .idle ∧
    ({ small with pc := 14 } : State).prog.length ≤ ({ small with pc := 14 } : State).pc := by
  decide

theorem witness_FetchStagesTheLineAtPc :
    ({ small with pc := 13 } : State).phase = .idle ∧ ({ small with pc := 13 } : State).prog[13]? = some [] := by
  decide

/-- Both clauses on the mnemonic: a declared one, and the empty one. -/
theorem witness_DecodeSplitsTheStagedLine :
    (small.fetchLine "ADD [0]".toList).phase = .fetched "ADD [0]".toList ∧
    (split "ADD [0]".toList).1 = Mnemonic.add.name ∧
    fetched.phase = .fetched [] ∧ ∀ m : Mnemonic, (split []).1 ≠ m.name :=
  ⟨rfl, by decide, rfl, fun m => by cases m <;> decide⟩

theorem witness_HaltedStepChangesNothing : (small.errorHalt .syntaxError).phase = .halted := rfl

theorem witness_ThreeStepsRunTheDecodedInstruction :
    loaded.phase = .idle ∧ loaded.prog[loaded.pc]? = some "LDI 10".toList ∧
    decode "LDI 10".toList = .ok (.ldi [.immediate 10]) := by
  decide

theorem witness_UndeclaredMnemonicHalts :
    (staged "FOO 1").phase = .decoded "FOO".toList ["1".toList] ∧ (staged "FOO 1").pc < (staged "FOO 1").prog.length ∧
    ∀ m : Mnemonic, m.name ≠ "FOO".toList :=
  ⟨by decide, by decide, fun m => by cases m <;> decide⟩

theorem witness_MemoryPortMovesOneCell :
    small.mem.wf = true ∧ (small.validAddress 0 ∧ small.validAddress 15) ∧
    (¬ small.validAddress (-1) ∧ ¬ small.validAddress 16) ∧ (∃ t, step small = .next t) ∧
    (∃ t, small.hostExpand 17 = some t) ∧ ∃ t, small.hostWrite 15 65535 = some t :=
  ⟨by decide, ⟨edge_addresses.1, edge_addresses.2.1⟩, edge_addresses.2.2, ⟨_, rfl⟩, ⟨_, rfl⟩, ⟨_, rfl⟩⟩

theorem witness_AddStoresTheMaskedSum : DirectWitness := directWitness
theorem witness_SubStoresTheMaskedDifference : DirectWitness := directWitness
theorem witness_MulKeepsTheLowHalf : DirectWitness := directWitness
theorem witness_LogicCombinesBitByBit : DirectWitness := directWitness
theorem witness_LdaLoadsTheCell : DirectWitness := directWitness
theorem witness_CmpSetsTheFlagsOfSub : DirectWitness := directWitness

/-- A divisor that is not 0 and one that is. -/
theorem witness_DivStoresTheQuotientOrHalts :
    DirectWitness ∧ small.mem.get 0 ≠ 0#16 ∧ small.mem.get 15 = 0#16 :=
  ⟨directWitness, by decide, by decide⟩

theorem witness_DivisionByZeroHaltsTheProcessor : small.validAddress 15 ∧ small.mem.get (15 : Int).toNat = 0#16 :=
  ⟨edge_addresses.2.1, by decide⟩

theorem witness_NotComplementsTheAccumulator : [Operand.direct 1] ≠ [] ∧ upward .not ≤ 15 := by decide

theorem witness_StaStoresTheAccumulator : DirectWitness ∧ small.mem.wf = true := ⟨directWitness, by decide⟩

/-- The memory need not be canonical. -/
theorem witness_StaCompletesAndTouchesOneCell :
    ({ small with mem := ⟨16, [(3, 0#16), (1, 2#16)]⟩ } : State).validAddress 15 ∧
    ({ small with mem := ⟨16, [(3, 0#16), (1, 2#16)]⟩ } : State).mem.wf = false :=
  ⟨by simp only [State.validAddress]; decide, by decide⟩

theorem witness_LdiLoadsTheMaskedImmediate :
    inI64 9223372036854775807 = true ∧ inI64 (-9223372036854775808) = true ∧
    noSingleOperand [.immediate 9223372036854775808] = true ∧ upward .ldi ≤ 15 := by
  decide

theorem witness_SubAndCmpOrderTheirOperands :
    small.validAddress 0 ∧ (∃ t, exec (.sub [.direct 0]) small = .next t) ∧ ∃ t, exec (.cmp [.direct 0]) small = .next t :=
  ⟨edge_addresses.1, ⟨_, rfl⟩, ⟨_, rfl⟩⟩

theorem witness_OnlyAddSubCmpWriteFlags :
    (∃ t, exec (.mul [.direct 0]) small = .next t ∧ t.phase = .idle) ∧ (Instr.mul [.direct 0]).mnemonic ≠ .add ∧
    (Instr.mul [.direct 0]).mnemonic ≠ .sub ∧ (Instr.mul [.direct 0]).mnemonic ≠ .cmp :=
  ⟨⟨_, rfl, rfl⟩, by decide⟩

theorem witness_OnlyTheListedInstructionsWriteAcc :
    ∃ t, exec (.cmp [.direct 0]) small = .next t ∧ t.phase = .idle := ⟨_, rfl, rfl⟩

theorem witness_OnlyStaWritesMemory :
    (∃ t, exec (.lda [.direct 0]) small = .next t ∧ t.phase = .idle) ∧ (Instr.lda [.direct 0]).mnemonic ≠ .sta :=
  ⟨⟨_, rfl, rfl⟩, by decide⟩

/-- What a jump's statement asks for, in a state where it is implemented: its condition both ways, its targets and its
addresses at their edges. -/
def JumpWitness (cond : State → Bool) : Prop :=
  (cond smallExt = true ∨ cond { smallExt with flags := zcvn 0 0 0 0 } = true) ∧ smallExt.extJumps = true ∧
  (smallExt.validAddress 0 ∧ smallExt.validAddress 15) ∧ (¬ smallExt.validAddress (-1) ∧ ¬ smallExt.validAddress 16) ∧
  (inI64 9223372036854775807 = true ∧ inI64 0 = true ∧ inI64 (-1) = true) ∧ noSingleOperand [] = true

theorem jumpWitness (cond : State → Bool)
    (h : cond smallExt = true ∨ cond { smallExt with flags := zcvn 0 0 0 0 } = true) : JumpWitness cond :=
  ⟨h, rfl, ⟨edge_addresses_ext.1, edge_addresses_ext.2.1⟩, edge_addresses_ext.2.2, by decide, by decide⟩

theorem witness_JmpSetsPcToTheTarget : JumpWitness (fun _ => true) := jumpWitness _ (by decide)

/-- Z true and Z false, so that each of the two jumps is taken in one state and not in the other. -/
theorem witness_ZeroJumpsFollowZ :
    JumpWitness (fun s => s.flags.z) ∧ JumpWitness (fun s => !s.flags.z) :=
  ⟨jumpWitness _ (by decide), jumpWitness _ (by decide)⟩

theorem witness_CarryJumpsFollowC :
    JumpWitness (fun s => s.flags.c) ∧ JumpWitness (fun s => !s.flags.c) :=
  ⟨jumpWitness _ (by decide), jumpWitness _ (by decide)⟩

theorem witness_ExtendedJumpsFollowVAndN :
    JumpWitness (fun s => s.flags.v) ∧ JumpWitness (fun s => !s.flags.v) ∧
    JumpWitness (fun s => s.flags.n) ∧ JumpWitness (fun s => !s.flags.n) :=
  ⟨jumpWitness _ (by decide), jumpWitness _ (by decide), jumpWitness _ (by decide), jumpWitness _ (by decide)⟩

theorem witness_ExtendedJumpsAreUnknownByDefault : small.extJumps = false := rfl

/-- The index just past the end and the greatest i64, a cell at each end that holds an index past the end, and each jump
taken in one of two states. -/
theorem witness_JumpPastTheEndHaltsAtTheNextFetch :
    (inI64 14 = true ∧ (small.prog.length : Int) ≤ 14 ∧ inI64 9223372036854775807 = true) ∧
    (({ small with mem := ⟨16, [(0, 14#16), (15, 0xFFFF#16)]⟩ } : State).validAddress 0 ∧
      small.prog.length ≤ (lookupCell [(0, 14#16), (15, 0xFFFF#16)] 0).toNat ∧
      small.prog.length ≤ (lookupCell [(0, 14#16), (15, 0xFFFF#16)] 15).toNat) ∧
    ([Mnemonic.jmp, .jz, .jc, .jv, .jn].all fun m =>
      m.operandClass == .j && m.implemented smallExt.extJumps && jumpTaken m smallExt.flags) = true ∧
    ([Mnemonic.jmp, .jnz, .jnc, .jnv, .jnn].all fun m =>
      m.operandClass == .j && m.implemented true && jumpTaken m small.flags) = true ∧
    ([Mnemonic.jmp, .jnz, .jnc].all fun m => m.implemented small.extJumps) = true := by
  refine ⟨by decide, ⟨?_, by decide, by decide⟩, by decide, by decide, by decide⟩
  simp only [State.validAddress]; decide

theorem witness_HaltStopsTheProcessor : [Operand.immediate 0] ≠ [] ∧ downward .halt ≤ 15 := by decide

theorem witness_NopOnlyAdvances :
    [Operand.immediate 1] ≠ [] ∧ downward .nop ≤ 15 ∧ (small.load ["NOP".toList]).phase = .idle ∧
    (small.load ["NOP".toList]).prog[0]? = some "NOP".toList := by
  decide

theorem witness_ModeMismatchIsRaisedByTheMode :
    ((Instr.cmp [.immediate 5]).mnemonic.operandClass = .d ∧ (Instr.cmp [.immediate 5]).operands = [.immediate 5] ∧
      inI64 5 = true) ∧
    ((Instr.jmp [.immediate 5]).mnemonic.operandClass = .j ∧ (∃ t, exec (.jmp [.immediate 5]) small = .next t) ∧
      small.err ≠ .modeMismatch) ∧
    ((Instr.nop []).mnemonic.operandClass = .n ∧ ∃ t, exec (.nop []) small = .next t) ∧
    findLabel [("loop".toList, 2)] "loop".toList = some 2 ∧ digitsValue 16 hexDigit "1F".toList = some 31 :=
  ⟨by decide, ⟨rfl, ⟨_, rfl⟩, by decide⟩, ⟨rfl, ⟨_, rfl⟩⟩, by decide, by decide⟩

theorem witness_ErrorHaltsArePrecise :
    ∃ t, exec (.add []) small = .next t ∧ small.err = .none ∧ t.err ≠ .none := ⟨_, rfl, rfl, by decide⟩

/-- One state for each clause, in the order of the statement. -/
theorem witness_ErrorsAreReportedInOrder :
    ((staged "JV 3").phase = .decoded Mnemonic.jv.name ["3".toList] ∧
      Mnemonic.implemented (staged "JV 3").extJumps .jv = false) ∧
    ((staged "ADD").phase = .decoded Mnemonic.add.name [] ∧
      Mnemonic.implemented (staged "ADD").extJumps .add = true ∧ ([] : List Line).length ≠ Mnemonic.add.operandClass.roles.length) ∧
    ((staged "LDI x").phase = .decoded Mnemonic.ldi.name ["x".toList] ∧ Mnemonic.ldi.operandClass ≠ .n ∧
      noSingleOperand [parseOperand "x".toList] = true) ∧
    ((staged "ADD 5").phase = .decoded Mnemonic.add.name ["5".toList] ∧ Mnemonic.add.operandClass = .d ∧
      parseOperand "5".toList = .immediate 5 ∧ inI64 5 = true) ∧
    ((staged "LDI [99]").phase = .decoded Mnemonic.ldi.name ["[99]".toList] ∧ Mnemonic.ldi.operandClass = .i ∧
      parseOperand "[99]".toList = .direct 99) ∧
    ((staged "JMP [16]").phase = .decoded Mnemonic.jmp.name ["[16]".toList] ∧ Mnemonic.jmp.operandClass = .j ∧
      parseOperand "[16]".toList = .direct 16) ∧
    ¬ (staged "JMP [16]").validAddress 16 ∧ (staged "JMP [16]").pc < (staged "JMP [16]").prog.length := by
  refine ⟨by decide, by decide, by decide, by decide, by decide, by decide, ?_, by decide⟩
  simp only [State.validAddress]; decide

/-- The invariants hold in a state with an instruction decoded, where all their clauses say something. -/
theorem staged_inv : (staged "ADD [0]").Inv ∧ (staged "ADD [0]").Counted :=
  ⟨⟨by decide, fun h => absurd rfl h, ⟨_, rfl, rfl, rfl⟩⟩, ⟨rfl, rfl⟩⟩

theorem witness_EveryStepKeepsTheInvariants : (staged "ADD [0]").Inv ∧ ∃ t, step (staged "ADD [0]") = .next t :=
  ⟨staged_inv.1, step_answers_next (fun _ _ _ h => nomatch h)⟩

theorem witness_EveryStepKeepsTheHistoryCounts :
    (staged "ADD [0]").Counted ∧ ∃ t, step (staged "ADD [0]") = .next t :=
  ⟨staged_inv.2, step_answers_next (fun _ _ _ h => nomatch h)⟩

theorem witness_NoStepStopsTheModel : (staged "ADD [0]").Inv := staged_inv.1

/-- One state for each phase; the fetch at both edges. -/
theorem witness_StepReturnsWhetherExecutionContinues :
    ((small.errorHalt .divByZero).phase = .halted) ∧ (small.err = .none ∧ small.phase = .idle ∧ ∃ t, step small = .next t) ∧
    (({ small with pc := 14 } : State).phase = .idle ∧ ∃ t, step { small with pc := 14 } = .next t) ∧
    (fetched.phase = .fetched [] ∧ ∃ t, step fetched = .next t) ∧
    ((staged "HALT").phase = .decoded "HALT".toList [] ∧ ∃ t, step (staged "HALT") = .next t) :=
  ⟨rfl, ⟨rfl, rfl, ⟨_, rfl⟩⟩, ⟨rfl, ⟨_, rfl⟩⟩, ⟨rfl, ⟨_, rfl⟩⟩, by decide, step_answers_next (fun _ _ _ h => nomatch h)⟩

theorem witness_StepsLeaveTheProgramAlone :
    (∃ t, step (staged "ADD [0]") = .next t) ∧ (staged "ADD [0]").phase ≠ .idle ∧
    ∀ line, (staged "ADD [0]").phase ≠ .fetched line :=
  ⟨step_answers_next (fun _ _ _ h => nomatch h), by decide, fun line => by simp [staged, State.stageLine]⟩

/-- An execute phase that completes, one that does not, a fetch past the end, and a fetch. -/
theorem witness_OnlyCompletedExecutionsCount :
    (∃ t, step (staged "NOP") = .next t ∧ t.phase = .idle) ∧ (∃ t, step (staged "ADD") = .next t ∧ t.phase = .halted) ∧
    (({ small with pc := 14 } : State).phase = .idle ∧ ({ small with pc := 14 } : State).prog.length ≤ 14) ∧
    ∃ t, step small = .next t :=
  ⟨⟨_, rfl, rfl⟩, ⟨_, rfl, rfl⟩, by decide, ⟨_, rfl⟩⟩

theorem witness_LoadRestartsAndKeepsMemory : small.mem.wf = true := by decide

/-- A run that its budget ends, one that the halt ends, and one that does not start; the first two have a step 0 < n. -/
theorem witness_RunStepsUntilHaltedOrBudget :
    (∃ t, run 1 loaded = .next (1, t)) ∧ (∃ t, run 5 { small with pc := 14 } = .next (1, t)) ∧
    (small.errorHalt .divByZero).phase = .halted :=
  ⟨⟨_, rfl⟩, ⟨_, rfl⟩, rfl⟩

theorem witness_RunsAnswerAndKeepTheInvariants : (staged "ADD [0]").Inv := staged_inv.1

theorem witness_HostWritesAndExpandsMemory :
    small.mem.wf = true ∧ (small.validAddress 0 ∧ small.validAddress 15) ∧
    (¬ small.validAddress (-1) ∧ ¬ small.validAddress 16) ∧
    (small.mem.size < 17 ∧ 17 ≤ 65536) ∧ (small.mem.size < 65536) ∧ ¬(small.mem.size < 16 ∧ 16 ≤ 65536) ∧
    ¬(small.mem.size < 65537 ∧ 65537 ≤ 65536) :=
  ⟨by decide, ⟨edge_addresses.1, edge_addresses.2.1⟩, edge_addresses.2.2, by decide, by decide, by decide, by decide⟩

/-- A well-formed instruction of each operand class. -/
theorem witness_DecodeOfEncodeIsTheInstruction :
    (Instr.add [.direct (-1)]).wf = true ∧ (Instr.ldi [.immediate 9223372036854775807]).wf = true ∧
    (Instr.jmp [.immediate (-9223372036854775808)]).wf = true ∧ (Instr.jz [.direct 0]).wf = true ∧
    (Instr.halt []).wf = true := by
  decide

/-- An opcode of 4 bits and one above, and the edges of the operand ranges. -/
theorem witness_DisplayWordsHaveTheirFields :
    upward .jc ≤ 15 ∧ 15 < upward .jnc ∧ 4095 ≤ 4095 ∧ ((-1 : Int) < 0 ∨ (4095 : Int) < -1) ∧
    ((4096 : Int) < 0 ∨ (4095 : Int) < 4096) := by
  decide

/-- A word whose opcode is a mnemonic's, and one whose is not. -/
theorem witness_DisplayWordsRoundTrip :
    (∃ m, upward m = ((0xF010#16).extractLsb' 12 4).toNat) ∧
    ∀ m : Mnemonic, (fun m : Mnemonic => m.index + 1) m ≠ ((0x0010#16).extractLsb' 12 4).toNat :=
  ⟨⟨.jc, by decide⟩, fun m => by cases m <;> decide⟩

theorem witness_WideDisplayWordsDecode :
    Function.Injective upward ∧ displayEncode upward .ldi (.immediate (-1)) = .ok (.w32 0xFFFFA000#32) :=
  ⟨Mnemonic.index_injective, by decide⟩

theorem witness_LabelNamesAreNeverNumbers : isLabelName "_x9".toList = true ∧ isLabelName "A".toList = true := by decide

/-- A `:` in a comment is none of the text's. -/
theorem witness_TextWithoutLabelsAssembles : ∀ l ∈ sourceLines "LDI 5 ; a: b\nHALT".toList, ':' ∉ dropComment l := by
  decide

/-- A text for each side: the first malformed label stands on line 2, behind a well-formed one and before another. -/
theorem witness_AssemblyFailsExactlyAtTheFirstMalformedLabel :
    assemble "a: NOP\n1a: NOP\n: NOP".toList = .error (.syntaxError 2) ∧
    (sourceLines "a: NOP\n1a: NOP\n: NOP".toList)[1]? = some "1a: NOP".toList ∧ MalformedLabel "1a: NOP".toList ∧
    assemble "a: NOP".toList = .ok (["NOP".toList], [("a".toList, 0)]) :=
  ⟨by decide, by decide, ⟨"1a".toList, " NOP".toList, by decide, by decide, by decide⟩, by decide⟩

/-- A label defined twice, the last time on line 1, after which no line defines it, and a name that no line defines. -/
theorem witness_AssemblyTokenizesAndResolvesLabels :
    assemble "a: NOP\na: JMP a".toList = .ok (["NOP".toList, "JMP 1".toList], [("a".toList, 1)]) ∧
    (sourceLines "a: NOP\na: JMP a".toList)[1]? = some "a: JMP a".toList ∧
    labelOf "a: JMP a".toList = some "a".toList ∧ (sourceLines "a: NOP\na: JMP a".toList).length = 2 ∧
    ∀ l ∈ sourceLines "a: NOP\na: JMP a".toList, labelOf l ≠ some "b".toList := by
  decide

end Sys2Proof.Tests
end

section
/-! PROOFS. The memory port and MEM_SIZE (spec/20_memory.md R53, R54): what a write does to a later read, the error halts
of the two instructions that are plain accesses, and what can change the size. -/

namespace Sys2Proof.Machine

/-! ### The memory port -/

theorem Memory.write_size {m k : Memory} {a : Int} {v : Word} (h : m.write a v = .ok k) : k.size = m.size := by
  obtain ⟨-, rfl⟩ := Memory.write_ok h
  rfl

theorem Memory.read_write_same {m k : Memory} {a : Int} {v : Word} (hm : m.wf = true) (h : m.write a v = .ok k) :
    k.read a = .ok v := by
  obtain ⟨hv, rfl⟩ := Memory.write_ok h
  rw [Memory.read_of_valid (by simpa using hv), Memory.get_set_same hm]

theorem Memory.read_write_other {m k : Memory} {a b : Int} {v : Word} (h : m.write a v = .ok k) (hb : b ≠ a) :
    k.read b = m.read b := by
  obtain ⟨hv, rfl⟩ := Memory.write_ok h
  exact Memory.read_set_other m v (by omega)

/-! ### The error halts of STA -/

theorem exec_sta_of_resolve_error {ops : List Operand} {e : ErrCode} (h : resolveDirect ops = .error e) (s : State) :
    exec (.sta ops) s = .next (s.errorHalt e) := by
  simp [exec, execSta, h, Except.bind]

theorem exec_sta_invalid {s : State} {a : Int} (h : ¬ s.validAddress a) :
    exec (.sta [.direct a]) s = .next (s.errorHalt .outOfBounds) := by
  simp [exec, execSta, Memory.write_of_invalid h, Except.bind, Except.map]

theorem directErrors_sta : DirectErrors .sta where
  operands := fun s ops ho => haltsWith_of_exec <| exec_sta_of_resolve_error
    (by simp [resolveDirect, resolveOne_of_noSingleOperand ho, Except.bind]) s
  mode := fun s i hi => haltsWith_of_exec <| exec_sta_of_resolve_error
    (by simp [resolveDirect, resolveOne_immediate hi, Except.bind]) s
  bounds := fun _ _ ha => haltsWith_of_exec (exec_sta_invalid ha)

theorem directErrors_lda : DirectErrors .lda := directErrors_of_readBody fun _ _ => rfl

/-! ### MEM_SIZE -/

theorem BodyEffect.mem_size {i : Instr} {s t : State} {adv : Advance} (h : BodyEffect i s adv t) :
    t.mem.size = s.mem.size := by
  rcases h.mem with hm | ⟨a, -, hw⟩
  · rw [hm]
  · exact Memory.write_size hw

theorem step_keeps_mem_size {s t : State} (h : step s = .next t) : t.mem.size = s.mem.size := by
  rcases step_cases h with ⟨-, rfl⟩ | ⟨-, -, rfl⟩ | ⟨_, -, -, rfl⟩ | ⟨_, -, rfl⟩ |
    ⟨_, _, _, adv, u, -, -, hb, rfl⟩ | ⟨_, _, e, -, -, rfl⟩
  · rfl
  · rw [haltPastEnd_mem]
  · rw [fetchLine_mem]
  · rw [decodeLine_mem]
  · obtain ⟨-, -, hmem, -⟩ := epilogue_keeps s u adv
    rw [hmem, hb.mem_size]
  · rw [errorHalt_mem]

/-- What a host expansion that is not refused does (R228). -/
theorem hostExpandWith_some {s t : State} {fill : Nat → Word} {n : Nat} (h : s.hostExpandWith fill n = some t) :
    (s.mem.size < n ∧ n ≤ Config.maxCells) ∧ t = s.setMem (s.mem.expand fill n) := by
  simpa [State.hostExpandWith, eq_comm] using h

/-- What a host write that is not refused does (R227). -/
theorem hostWrite_some {s t : State} {a v : Int} (h : s.hostWrite a v = some t) :
    (s.validAddress a ∧ 0 ≤ v ∧ v ≤ 65535) ∧ t = s.setMem (s.mem.set a.toNat (mask16 v)) := by
  simpa [State.hostWrite, State.validAddress, and_assoc, eq_comm] using h

theorem hostExpand_mem_size_lt {s t : State} {n : Nat} (h : s.hostExpand n = some t) : s.mem.size < t.mem.size := by
  obtain ⟨⟨hn, -⟩, rfl⟩ := hostExpandWith_some h
  exact hn

theorem hostWrite_keeps_mem_size {s t : State} {a v : Int} (h : s.hostWrite a v = some t) :
    t.mem.size = s.mem.size := by
  obtain ⟨-, rfl⟩ := hostWrite_some h
  rfl

/-- Settles O11: the port's laws for a valid and an invalid address, the error halts of LDA and STA as class D, and what a
step and each host operation do to MEM_SIZE. -/
theorem memoryPortMovesOneCell : Obligations.MemoryPortMovesOneCell := by
  refine ⟨fun m a v hm h0 ha => ⟨Memory.read_of_valid ⟨h0, ha⟩, ?_⟩,
    fun m a v ha => ⟨Memory.read_of_invalid ha, Memory.write_of_invalid ha v⟩,
    fun s a ha => ⟨directErrors_lda.bounds s a ha, directErrors_sta.bounds s a ha⟩,
    fun _ _ => step_keeps_mem_size, fun _ _ _ => hostExpand_mem_size_lt, fun _ _ _ _ => hostWrite_keeps_mem_size,
    fun s lines => by rw [load_mem]⟩
  have hw := Memory.write_of_valid ⟨h0, ha⟩ v
  exact ⟨_, hw, Memory.write_size hw, Memory.read_write_same hm hw, fun _ hb => Memory.read_write_other hw hb⟩

end Sys2Proof.Machine
end

section
/-! PROOFS. The display words (spec/30_encoding.md R72, R74, R75): the fields of the two layouts, and what the display
encoder answers on each side of its range checks. -/

namespace Sys2Proof.Machine

/-! ### The fields of the 16-bit word -/

theorem fields_of_toNat16 {w : BitVec 16} {op f : Nat} (hf : f ≤ 4095) (hw : w.toNat = op * 4096 + f) :
    (w.extractLsb' 12 4).toNat = op ∧ (w.extractLsb' 0 12).toNat = f := by
  have hlt := w.isLt
  simp only [BitVec.extractLsb'_toNat, Nat.shiftRight_eq_div_pow, hw] at hlt ⊢
  omega

theorem ShownAs.fields {m : Mnemonic} {o : DisplayOperand} {f : Nat} (h : ShownAs m o f) (hf : f ≤ 4095)
    {opcodeOf : Mnemonic → Nat} (ho : opcodeOf m ≤ 15) :
    ∃ w, displayEncode opcodeOf m o = .ok (.w16 w) ∧
      (w.extractLsb' 12 4).toNat = opcodeOf m ∧ (w.extractLsb' 0 12).toNat = f := by
  obtain ⟨w, hw, hv⟩ := h opcodeOf ho
  exact ⟨w, hw, fields_of_toNat16 hf hv⟩

/-! ### The fields of the 32-bit word -/

theorem displayWord32_immediate (imm : Word) {op : Nat} (ho : op ≤ 15) :
    (displayWord32 imm op).extractLsb' 16 16 = imm := by
  apply BitVec.eq_of_toNat_eq
  have hlt := imm.isLt
  simp only [BitVec.extractLsb'_toNat, Nat.shiftRight_eq_div_pow, displayWord32_toNat imm ho]
  omega

theorem displayWord32_opcode (imm : Word) {op : Nat} (ho : op ≤ 15) :
    ((displayWord32 imm op).extractLsb' 12 4).toNat = op := by
  simp only [BitVec.extractLsb'_toNat, Nat.shiftRight_eq_div_pow, displayWord32_toNat imm ho]
  omega

theorem displayWord32_low (imm : Word) {op : Nat} (ho : op ≤ 15) : (displayWord32 imm op).extractLsb' 0 12 = 0#12 := by
  apply BitVec.eq_of_toNat_eq
  simp only [BitVec.extractLsb'_toNat, Nat.shiftRight_eq_div_pow, displayWord32_toNat imm ho, BitVec.toNat_ofNat]
  omega

theorem mask16_toNat (i : Int) : ((mask16 i).toNat : Int) = i % 65536 := by
  simp only [mask16, BitVec.toNat_ofInt]
  omega

/-! ### The range checks of the display encoder -/

theorem displayEncode_of_wide_opcode {opcodeOf : Mnemonic → Nat} {m : Mnemonic} (h : 15 < opcodeOf m)
    (o : DisplayOperand) : displayEncode opcodeOf m o = .error .encodingRangeError := if_pos h

theorem displayEncode_direct_outside {opcodeOf : Mnemonic → Nat} {m : Mnemonic} (ho : opcodeOf m ≤ 15) {a : Int}
    (ha : a < 0 ∨ 4095 < a) : displayEncode opcodeOf m (.direct a) = .error .encodingRangeError := by
  rw [displayEncode, if_neg (by omega)]
  exact if_pos ha

theorem displayEncode_immediate_outside {opcodeOf : Mnemonic → Nat} {m : Mnemonic} (ho : opcodeOf m ≤ 15) {i : Int}
    (hi : i < 0 ∨ 4095 < i) :
    displayEncode opcodeOf m (.immediate i) = .ok (.w32 (displayWord32 (mask16 i) (opcodeOf m))) := by
  rw [displayEncode, if_neg (by omega)]
  exact if_neg (by omega)

/-- Settles O51: the 16-bit fields come from what each operand is shown as, the 32-bit fields from the word's own layout,
and the errors from the encoder's range checks. -/
theorem displayWordsHaveTheirFields : Obligations.DisplayWordsHaveTheirFields := by
  refine fun opcodeOf m => ⟨fun ho => ⟨?none, ?direct, ?directOutside, ?immediate, ?immediateOutside⟩, ?wideOpcode⟩
  case none => exact (shownAs_none m).fields (by omega) ho
  case direct => exact fun a ha => (shownAs_direct m a ha).fields ha ho
  case directOutside => exact fun a ha => displayEncode_direct_outside ho ha
  case immediate => exact fun i hi => (shownAs_immediate m i hi).fields hi ho
  case immediateOutside =>
    refine fun i hi => ⟨_, displayEncode_immediate_outside ho hi, ?_, displayWord32_opcode _ ho, ?_⟩
    · rw [displayWord32_immediate _ ho, mask16_toNat]
    · rw [displayWord32_low _ ho]
      rfl
  case wideOpcode => exact fun h o => displayEncode_of_wide_opcode h o

end Sys2Proof.Machine
end

section
/-! PROOFS. The fetch phase and the flag rule (spec/40_cycle.md R101, R103, R104, R110): what a fetch answers on each side of
NPROG, when a step returns true, and the carry flag under both tags. -/

namespace Sys2Proof.Machine

/-! ### The Boolean a step returns -/

theorem continues_eq_false_iff (s : State) : s.continues = false ↔ s.phase = .halted := by
  rw [← Bool.not_eq_true, continues_iff, not_not]

/-! ### The fetch phase -/

theorem fetchPhase_past_end {s : State} (h : s.prog.length ≤ s.pc) : s.fetchPhase = s.haltPastEnd := by
  rw [State.fetchPhase, List.getElem?_eq_none h]

theorem fetchPhase_line {s : State} {line : Line} (h : s.prog[s.pc]? = some line) : s.fetchPhase = s.fetchLine line := by
  rw [State.fetchPhase, h]

/-- Settles O4: with PC at or past NPROG no line stands at PC, and the fetch phase is the normal halt. -/
theorem fetchPastTheEndHaltsNormally : Obligations.FetchPastTheEndHaltsNormally := by
  intro s hidle hend
  refine ⟨?_, (halted_iff _).2 rfl, (continues_eq_false_iff _).2 rfl⟩
  rw [step_idle hidle, fetchPhase_past_end hend]
  rfl

/-- Settles O5: with a line at PC the fetch phase stages it, and the phase it leads to is not Halted. -/
theorem fetchStagesTheLineAtPc : Obligations.FetchStagesTheLineAtPc := by
  intro s line hidle hline
  refine ⟨s.fetchLine line, ?_, (continues_iff _).2 (by simp), rfl⟩
  rw [step_idle hidle, fetchPhase_line hline]

/-! ### The flag rule -/

theorem updateFlags_c_iff (r : Int) (op : FlagOp) :
    (updateFlags r op).c = true ↔ (op = .add ∧ r < 0) ∨ (op = .sub ∧ r > 0) := by
  cases op with
  | add => simp [updateFlags_c_add]
  | sub => simp [updateFlags_c_sub]

/-- Settles O24, one flag at a time; only C depends on the tag. -/
theorem updateFlagsFollowsTheRule : Obligations.UpdateFlagsFollowsTheRule := fun r op =>
  ⟨updateFlags_z_iff r op, updateFlags_n_iff r op, updateFlags_v_iff r op, updateFlags_c_iff r op⟩

end Sys2Proof.Machine
end

section
/-! PROOFS. ADD and SUB (spec/41_arithmetic.md R130, R131): the masked results and the flags of the raw sum and of the raw
difference, in the terms of the statements. -/

namespace Sys2Proof.Machine

theorem mask16_rawSum (a m : Word) : mask16 (rawSum a m) = BitVec.ofNat 16 (a.toNat + m.toNat) :=
  BitVec.ofInt_natCast 16 (a.toNat + m.toNat)

theorem rawDifference_eq_zero_iff (a m : Word) : rawDifference a m = 0 ↔ a = m := by
  rw [rawDifference, sub_eq_zero, Nat.cast_inj, BitVec.toNat_inj]

/-- A sum of unsigned values is never negative, so N and C are false and V tests its upper bound alone (R130). -/
theorem updateFlags_rawSum (a m : Word) :
    updateFlags (rawSum a m) .add =
      { z := decide (a.toNat + m.toNat = 0), c := false, v := decide (a.toNat + m.toNat > 32767), n := false } := by
  refine flags_eq ?z ?c ?v ?n <;> rw [Bool.eq_iff_iff]
  case z => rw [updateFlags_z_iff, decide_eq_true_iff, rawSum]; omega
  case c => rw [updateFlags_c_add, rawSum]; simp only [Bool.false_eq_true, iff_false]; omega
  case v => rw [updateFlags_v_iff, decide_eq_true_iff, rawSum]; omega
  case n => rw [updateFlags_n_iff, rawSum]; simp only [Bool.false_eq_true, iff_false]; omega

/-- The flags of a raw difference compare the unsigned operands (R131, and R160 for CMP). -/
theorem updateFlags_rawDifference (a m : Word) :
    updateFlags (rawDifference a m) .sub =
      { z := decide (a = m), c := decide (a.toNat > m.toNat), n := decide (a.toNat < m.toNat),
        v := decide ((a.toNat : Int) - m.toNat > 32767) || decide ((a.toNat : Int) - m.toNat < -32768) } := by
  refine flags_eq ?z ?c rfl ?n <;> rw [Bool.eq_iff_iff]
  case z => rw [updateFlags_z_iff, decide_eq_true_iff, rawDifference_eq_zero_iff]
  case c => rw [updateFlags_c_sub, decide_eq_true_iff, rawDifference]; omega
  case n => rw [updateFlags_n_iff, decide_eq_true_iff, rawDifference]; omega

/-- Settles O12: ADD is a class-D read whose result is the masked raw sum with the flags of the raw sum. -/
theorem addStoresTheMaskedSum : Obligations.AddStoresTheMaskedSum :=
  readRule_of_body (fun _ => rfl) (fun _ _ => rfl) fun _ _ => by
    rw [mask16_rawSum, updateFlags_rawSum]
    rfl

/-- Settles O13: SUB is a class-D read whose result is the masked raw difference with the flags of the raw difference. -/
theorem subStoresTheMaskedDifference : Obligations.SubStoresTheMaskedDifference :=
  readRule_of_body (fun _ => rfl) (fun _ _ => rfl) fun _ _ => by
    rw [updateFlags_rawDifference]
    rfl

end Sys2Proof.Machine
end

section
/-! PROOFS. NOP (spec/45_control.md R176): its rule, and the three steps from the fetch of a line to the execute phase of the
instruction it stands for (spec/40_cycle.md R101). -/

namespace Sys2Proof.Machine

/-! ### From fetch to execute -/

theorem step_idle_line {s : State} {line : Line} (hidle : s.phase = .idle) (hline : s.prog[s.pc]? = some line) :
    step s = .next (s.fetchLine line) := by
  rw [step_idle hidle, fetchPhase_line hline]

theorem step_fetchLine (s : State) (line : Line) :
    step (s.fetchLine line) = .next ((s.fetchLine line).decodeLine line) :=
  step_fetched (fetchLine_phase s line)

theorem step_decodeLine_fetchLine {s : State} {line : Line} {i : Instr} (hline : s.prog[s.pc]? = some line)
    (hdec : decode line = .ok i) :
    step ((s.fetchLine line).decodeLine line) = exec i ((s.fetchLine line).decodeLine line) :=
  step_decoded (decodeLine_phase _ line) hline hdec

/-! ### NOP -/

theorem decode_nop : decode "NOP".toList = .ok (.nop []) := decode_name .nop

theorem bareRule_nop : BareRule .nop .nop (fun a => a) := bareRule_of_body rfl fun _ _ => rfl

/-- Settles O36: NOP is a class-N instruction whose body is the identity. Fetch and decode move neither PC nor CYCLES, so
the completion of the execute phase gives the count of all three steps, each of which appends one entry. -/
theorem nopOnlyAdvances : Obligations.NopOnlyAdvances := by
  refine ⟨bareRule_nop, fun s hidle hline => ?_⟩
  obtain ⟨v, hexec, hdone, -⟩ := bareRule_nop.completes ((s.fetchLine "NOP".toList).decodeLine "NOP".toList)
  refine ⟨_, _, v, step_idle_line hidle hline, step_fetchLine s _,
    (step_decodeLine_fetchLine hline decode_nop).trans hexec, hdone.pc, hdone.cycles, hdone.phase, ?_⟩
  simp only [hdone.hist, decodeLine_hist, fetchLine_hist, List.length_append, List.length_singleton]

end Sys2Proof.Machine
end

section
/-! PROOFS. Two error causes (spec/60_exceptions.md R193, R195): which operands are a mode mismatch and which classes never
raise one, what a label and a hex token read as, and the zero divisor. -/

namespace Sys2Proof.Machine

/-! ### The mode errors of classes D and I -/

theorem directErrors_of_class_d {m : Mnemonic} (h : m.operandClass = .d) : DirectErrors m.instr := by
  cases m with
  | sta => exact directErrors_sta
  | add | sub | mul | div | and | or | xor | lda | cmp => exact directErrors_of_readBody fun _ _ => rfl
  | not | ldi | jmp | jz | jnz | jc | jnc | jv | jnv | jn | jnn | halt | nop => cases h

theorem exec_ldi_direct (s : State) (a : Int) : exec (.ldi [.direct a]) s = .next (s.errorHalt .modeMismatch) := rfl

/-! ### Classes J and N never raise a mode mismatch -/

theorem readTarget_ne_modeMismatch (ops : List Operand) (m : Memory) : readTarget ops m ≠ .error .modeMismatch := by
  cases hr : resolveOne ops with
  | error e =>
    rw [resolveOne_error hr] at hr
    simp [readTarget, hr, Except.bind]
  | ok o =>
    cases o with
    | immediate i => simp [readTarget, hr, Except.bind, targetOf]
    | direct a =>
      cases hm : m.read a with
      | ok w => simp [readTarget, hr, Except.bind, targetOf, hm, Except.map]
      | error e =>
        rw [Memory.read_error hm] at hm
        simp [readTarget, hr, Except.bind, targetOf, hm, Except.map]

theorem jumpBody_ne_modeMismatch (cond : State → Bool) (ops : List Operand) (s : State) :
    jumpBody cond ops s ≠ .error .modeMismatch := by
  cases hr : readTarget ops s.mem with
  | error e =>
    have he : e ≠ .modeMismatch := fun he => readTarget_ne_modeMismatch ops s.mem (he ▸ hr)
    simpa [jumpBody, hr, Except.bind] using he
  | ok n =>
    simp only [jumpBody, hr, Except.bind]
    split_ifs <;> simp

/-- ERR after an execute phase holds a cause only if the body raised it or left it there. -/
theorem afterBody_err_ne {s : State} {r : BodyResult} {e : ErrCode} (hok : ∀ adv t, r = .ok (adv, t) → t.err ≠ e)
    (herr : r ≠ .error e) : (s.afterBody r).err ≠ e := by
  cases r with
  | error e' => simpa using herr
  | ok p =>
    obtain ⟨-, -, -, -, -, hkept, -⟩ := epilogue_keeps s p.2 p.1
    exact hkept ▸ hok p.1 p.2 rfl

section
variable {s : State} (hs : s.err ≠ .modeMismatch)
include hs

theorem afterBody_jumpBody_err (cond : State → Bool) (ops : List Operand) :
    (s.afterBody (jumpBody cond ops s)).err ≠ .modeMismatch := by
  refine afterBody_err_ne (fun adv t h => ?_) (jumpBody_ne_modeMismatch cond ops s)
  obtain ⟨n, -, ⟨-, -, -, rfl⟩ | ⟨-, -, rfl⟩⟩ := jumpBody_ok h
  · exact hs
  · exact hs

theorem afterBody_extendedBody_err (cond : State → Bool) (ops : List Operand) :
    (s.afterBody (extendedBody (jumpBody cond ops) s)).err ≠ .modeMismatch := by
  cases hx : s.extJumps with
  | true => simpa [extendedBody, hx] using afterBody_jumpBody_err hs cond ops
  | false => simp [extendedBody, hx]

theorem afterBody_noneBody_err (ops : List Operand) (adv : Advance) {result : State → State}
    (hkept : (result s).err = s.err) : (s.afterBody (noneBody ops adv result s)).err ≠ .modeMismatch := by
  refine afterBody_err_ne (fun adv' t h => ?_) (fun h => ?_)
  · obtain ⟨-, -, rfl⟩ := noneBody_ok h
    exact hkept ▸ hs
  · cases ops <;> cases h

theorem exec_err_ne_modeMismatch {i : Instr} {t : State}
    (hclass : i.mnemonic.operandClass = .j ∨ i.mnemonic.operandClass = .n) (h : exec i s = .next t) :
    t.err ≠ .modeMismatch := by
  cases i with
  | jmp ops | jz ops | jnz ops | jc ops | jnc ops =>
    obtain rfl := Host.Outcome.next.inj h
    exact afterBody_jumpBody_err hs _ ops
  | jv ops | jnv ops | jn ops | jnn ops =>
    obtain rfl := Host.Outcome.next.inj h
    exact afterBody_extendedBody_err hs _ ops
  | not ops | halt ops | nop ops =>
    obtain rfl := Host.Outcome.next.inj h
    exact afterBody_noneBody_err hs ops _ rfl
  | add | sub | mul | div | and | or | xor | lda | sta | ldi | cmp => exact hclass.elim nofun nofun

end

/-! ### What a label and a hex token read as -/

/-- Pass 2 writes a label's index in decimal, which is the token of an Immediate (R84). -/
theorem parseOperand_substitute {labels : LabelTable} {name : Line} {n : Nat} (h : findLabel labels name = some n) :
    parseOperand (substitute labels name) = .immediate (n : Int) := by
  have htoken : substitute labels name = (Operand.immediate (n : Int)).token := by
    simp [substitute, h, Operand.token, renderInt]
  rw [htoken, parseOperand_immediate_token]

theorem digit_of_digitsFrom {base : Nat} {digit : Char → Option Nat} {cs : Line} {v w : Nat}
    (h : digitsFrom base digit w cs = some v) : ∀ c ∈ cs, (digit c).isSome := by
  induction cs generalizing w with
  | nil => simp
  | cons c cs ih =>
    cases hd : digit c with
    | none => simp [digitsFrom, hd] at h
    | some d =>
      simp only [digitsFrom, hd] at h
      exact List.forall_mem_cons.2 ⟨by simp [hd], ih h⟩

theorem digit_of_digitsValue {base : Nat} {digit : Char → Option Nat} {cs : Line} {v : Nat}
    (h : digitsValue base digit cs = some v) : ∀ c ∈ cs, (digit c).isSome := by
  rw [digitsValue] at h
  split_ifs at h
  exact digit_of_digitsFrom h

theorem hexDigit_no_space {c : Char} (h : (hexDigit c).isSome) : isSpace c = false := by
  rw [isSpace, Bool.or_eq_false_iff, beq_eq_false_iff_ne, beq_eq_false_iff_ne]
  constructor <;> rintro rfl <;> cases h

theorem hexMark_no_space {mark : Char} {digits : Line} {v : Nat} (hm : mark = 'x' ∨ mark = 'X')
    (hv : digitsValue 16 hexDigit digits = some v) : ∀ c ∈ '0' :: mark :: digits, isSpace c = false := by
  refine List.forall_mem_cons.2 ⟨rfl, List.forall_mem_cons.2 ⟨?_, fun c hc => ?_⟩⟩
  · rcases hm with rfl | rfl <;> rfl
  · exact hexDigit_no_space (digit_of_digitsValue hv c hc)

theorem afterHexMark_hex {mark : Char} (hm : mark = 'x' ∨ mark = 'X') (digits : Line) :
    afterHexMark ('0' :: mark :: digits) = some digits := if_pos ⟨rfl, hm⟩

theorem parseNumber_hex {mark : Char} {digits : Line} {v : Nat} (hm : mark = 'x' ∨ mark = 'X')
    (hv : digitsValue 16 hexDigit digits = some v) : parseNumber ('0' :: mark :: digits) = some (v : Int) := by
  have hsign : takeSign ('0' :: mark :: digits) = (false, '0' :: mark :: digits) := rfl
  simp [parseNumber, trim_of_no_space (hexMark_no_space hm hv), hsign, parseUnsigned, afterHexMark_hex hm, hv, applySign]

/-- An unbracketed token with a hex mark is an address, not a constant (R65, step 2). -/
theorem parseOperand_hex {mark : Char} {digits : Line} {v : Nat} (hm : mark = 'x' ∨ mark = 'X')
    (hv : digitsValue 16 hexDigit digits = some v) : parseOperand ('0' :: mark :: digits) = .direct (v : Int) := by
  have hbracket : bracketed ('0' :: mark :: digits) = none := by simp [bracketed]
  simp [parseOperand, trim_of_no_space (hexMark_no_space hm hv), hbracket, afterHexMark_hex hm, directOperand,
    parseNumber_hex hm hv]

/-- Settles O37: an Immediate is a mode error of every class-D instruction and a Direct one of LDI, the bodies of classes J
and N have no mode check, and a label and a hex token read as those two modes. -/
theorem modeMismatchIsRaisedByTheMode : Obligations.ModeMismatchIsRaisedByTheMode := by
  refine ⟨fun i s v hclass hops hv => ?_, fun s a => haltsWith_of_exec (exec_ldi_direct s a),
    fun i s t hclass h hs => exec_err_ne_modeMismatch hs hclass h, fun _ _ _ => parseOperand_substitute,
    fun _ _ _ => parseOperand_hex, rfl⟩
  rw [← i.instr_of_parts, hops]
  exact (directErrors_of_class_d hclass).mode s v hv

/-! ### The zero divisor -/

theorem exec_div_by_zero {s : State} {a : Int} (ha : s.validAddress a) (hzero : s.mem.get a.toNat = 0#16) :
    exec (.div [.direct a]) s = .next (s.errorHalt .divByZero) := by
  simp [exec, execDiv, readBody_valid ha, hzero, Except.map]

/-- Settles O16: a zero divisor is an error halt with the cause DivisionByZero. -/
theorem divisionByZeroHaltsTheProcessor : Obligations.DivisionByZeroHaltsTheProcessor := fun _ _ ha hzero =>
  ⟨_, exec_div_by_zero ha hzero, rfl, rfl, rfl⟩

end Sys2Proof.Machine
end

section
/-! PROOFS. The invariants of the reachable states and the counting property (spec/10_state.md R38, spec/40_cycle.md R117):
what each phase of a step does to them, and that the states the host starts from meet them. -/

namespace Sys2Proof.Machine

/-! ### What a body leaves unchanged -/

section
variable {i : Instr} {s t : State} {adv : Advance} (h : BodyEffect i s adv t)
include h

theorem BodyEffect.cycles : t.cycles = s.cycles := by rw [h.rest]

theorem BodyEffect.ir : t.ir = s.ir := by rw [h.rest]

theorem BodyEffect.irasm : t.irasm = s.irasm := by rw [h.rest]

theorem BodyEffect.err : t.err = s.err := by rw [h.rest]

theorem BodyEffect.prog : t.prog = s.prog := by rw [h.rest]

theorem BodyEffect.hist : t.hist = s.hist := by rw [h.rest]

theorem BodyEffect.extJumps : t.extJumps = s.extJumps := by rw [h.rest]

theorem BodyEffect.mem_wf (hm : s.mem.wf = true) : t.mem.wf = true := by
  rcases h.mem with hk | ⟨a, -, hw⟩
  · rwa [hk]
  · exact Memory.write_keeps_wf hm hw

theorem BodyEffect.epilogue_hist :
    (s.epilogue adv t).hist = s.hist ++ [s.executeEntry (s.epilogue adv t)] := by
  rw [Machine.epilogue_hist, h.hist]

end

/-- An instruction that completes leaves the phase Idle, HALT leaves it Halted. -/
theorem epilogue_phase_idle_or_halted (s t : State) (adv : Advance) :
    (s.epilogue adv t).phase = .idle ∨ (s.epilogue adv t).phase = .halted := by
  cases adv
  · exact .inl rfl
  · exact .inl rfl
  · exact .inr rfl

/-! ### The staged line -/

theorem stagedAgrees_of_nothing_staged {s : State} (h : s.phase = .idle ∨ s.phase = .halted) : s.stagedAgrees := by
  rcases h with h | h <;> simp [State.stagedAgrees, h]

theorem stagedAgrees_fetched_iff {s : State} {line : Line} (h : s.phase = .fetched line) :
    s.stagedAgrees ↔ s.prog[s.pc]? = some line ∧ s.irasm = some line := by
  simp [State.stagedAgrees, h]

theorem stagedAgrees_decoded_iff {s : State} {mnem : Line} {ops : List Line} (h : s.phase = .decoded mnem ops) :
    s.stagedAgrees ↔ ∃ line, s.prog[s.pc]? = some line ∧ s.irasm = some line ∧ split line = (mnem, ops) := by
  simp [State.stagedAgrees, h]

/-! ### Each phase keeps the invariants -/

theorem State.Inv.err_none {s : State} (hs : s.Inv) (h : s.phase ≠ .halted) : s.err = .none :=
  by_contra fun he => h (hs.errorHalted he)

theorem inv_of_idle {s : State} (hm : s.mem.wf = true) (hp : s.phase = .idle) (he : s.err = .none) : s.Inv :=
  ⟨hm, fun hne => absurd he hne, stagedAgrees_of_nothing_staged (.inl hp)⟩

theorem inv_of_halted {s : State} (hm : s.mem.wf = true) (hp : s.phase = .halted) : s.Inv :=
  ⟨hm, fun _ => hp, stagedAgrees_of_nothing_staged (.inr hp)⟩

theorem inv_fetchLine {s : State} {line : Line} (hs : s.Inv) (hp : s.phase = .idle) (hl : s.prog[s.pc]? = some line) :
    (s.fetchLine line).Inv where
  memory := hs.memory
  errorHalted := fun he => absurd (hs.err_none (by simp [hp])) he
  staged := (stagedAgrees_fetched_iff (fetchLine_phase s line)).2 ⟨hl, rfl⟩

theorem inv_decodeLine {s : State} {line : Line} (hs : s.Inv) (hp : s.phase = .fetched line) :
    (s.decodeLine line).Inv where
  memory := hs.memory
  errorHalted := fun he => absurd (hs.err_none (by simp [hp])) he
  staged := by
    obtain ⟨hl, hi⟩ := (stagedAgrees_fetched_iff hp).1 hs.staged
    exact (stagedAgrees_decoded_iff (decodeLine_phase s line)).2 ⟨line, hl, hi, rfl⟩

theorem inv_epilogue {i : Instr} {s u : State} {adv : Advance} (hs : s.Inv) (hp : s.phase ≠ .halted)
    (hb : BodyEffect i s adv u) : (s.epilogue adv u).Inv := by
  obtain ⟨-, -, hmem, -, -, herr, -, -⟩ := epilogue_keeps s u adv
  have hm : (s.epilogue adv u).mem.wf = true := hmem ▸ hb.mem_wf hs.memory
  rcases epilogue_phase_idle_or_halted s u adv with h | h
  · exact inv_of_idle hm h (by rw [herr, hb.err, hs.err_none hp])
  · exact inv_of_halted hm h

/-- Settles O40, phase by phase: fetch stages the line at PC, decode splits that line, and an execute phase stages nothing,
writes memory through the port alone, and leaves a cause in ERR only with a halt. -/
theorem everyStepKeepsTheInvariants : Obligations.EveryStepKeepsTheInvariants := by
  intro s t hs h
  rcases step_cases h with ⟨-, rfl⟩ | ⟨-, -, rfl⟩ | ⟨_, hp, hl, rfl⟩ | ⟨_, hp, rfl⟩ |
    ⟨_, _, _, _, _, hp, -, hb, rfl⟩ | ⟨_, _, _, -, -, rfl⟩
  · exact hs
  · exact inv_of_halted hs.memory rfl
  · exact inv_fetchLine hs hp hl
  · exact inv_decodeLine hs hp
  · exact inv_epilogue hs (by simp [hp]) hb
  · exact inv_of_halted hs.memory rfl

/-! ### The counts of history entries -/

theorem counted_iff_of_nothing_staged {s : State} (h : s.phase = .idle ∨ s.phase = .halted) :
    s.Counted ↔ s.countTag .fetch = s.countTag .execute ∧ s.countTag .decode = s.countTag .execute := by
  rcases h with h | h <;> simp [State.Counted, h]

theorem counted_fetched_iff {s : State} {line : Line} (h : s.phase = .fetched line) :
    s.Counted ↔ s.countTag .fetch = s.countTag .execute + 1 ∧ s.countTag .decode = s.countTag .execute := by
  simp [State.Counted, h]

theorem counted_decoded_iff {s : State} {mnem : Line} {ops : List Line} (h : s.phase = .decoded mnem ops) :
    s.Counted ↔ s.countTag .fetch = s.countTag .execute + 1 ∧ s.countTag .decode = s.countTag .execute + 1 := by
  simp [State.Counted, h]

theorem counted_haltPastEnd {s : State} (hs : s.Counted) (hp : s.phase = .idle) : s.haltPastEnd.Counted :=
  (counted_iff_of_nothing_staged (.inr rfl)).2 ((counted_iff_of_nothing_staged (.inl hp)).1 hs)

theorem counted_fetchLine {s : State} (hs : s.Counted) (hp : s.phase = .idle) (line : Line) :
    (s.fetchLine line).Counted := by
  have hs' := (counted_iff_of_nothing_staged (.inl hp)).1 hs
  rw [counted_fetched_iff (fetchLine_phase s line)]
  simpa [countTag_of_append (fetchLine_hist s line)] using hs'

theorem counted_decodeLine {s : State} {line : Line} (hs : s.Counted) (hp : s.phase = .fetched line) :
    (s.decodeLine line).Counted := by
  have hs' := (counted_fetched_iff hp).1 hs
  rw [counted_decoded_iff (decodeLine_phase s line)]
  simpa [countTag_of_append (decodeLine_hist s line)] using hs'

/-- The one execute entry of an execute phase, completed or not, makes up the lead of its fetch and its decode. -/
theorem counted_after_execute {s t : State} {mnem : Line} {ops : List Line} {e : HistEntry} (hs : s.Counted)
    (hp : s.phase = .decoded mnem ops) (ht : t.phase = .idle ∨ t.phase = .halted) (hh : t.hist = s.hist ++ [e])
    (he : e.phase = .execute) : t.Counted := by
  have hs' := (counted_decoded_iff hp).1 hs
  rw [counted_iff_of_nothing_staged ht]
  simpa [countTag_of_append hh, he] using hs'

/-- Settles O41: each phase appends one entry under its own tag, in the order of the lead, and neither a fetch past the end
nor a step in Halted appends any. -/
theorem everyStepKeepsTheHistoryCounts : Obligations.EveryStepKeepsTheHistoryCounts := by
  intro s t hs h
  rcases step_cases h with ⟨-, rfl⟩ | ⟨hp, -, rfl⟩ | ⟨line, hp, -, rfl⟩ | ⟨_, hp, rfl⟩ |
    ⟨_, _, _, adv, u, hp, -, hb, rfl⟩ | ⟨_, _, e, hp, -, rfl⟩
  · exact hs
  · exact counted_haltPastEnd hs hp
  · exact counted_fetchLine hs hp line
  · exact counted_decodeLine hs hp
  · exact counted_after_execute hs hp (epilogue_phase_idle_or_halted s u adv) hb.epilogue_hist rfl
  · exact counted_after_execute hs hp (.inr rfl) (errorHalt_hist s e) rfl

/-! ### Steps and runs from a state with the invariants -/

/-- Settles O42: in phase Decoded the staged line is the line at PC, so that PC is below NPROG. -/
theorem noStepStopsTheModel : Obligations.NoStepStopsTheModel := by
  refine fun s hs => step_answers_next fun mnem ops hp hnone => ?_
  obtain ⟨line, hline, -⟩ := (stagedAgrees_decoded_iff hp).1 hs.staged
  cases hnone.symm.trans hline

/-! ### What `run` does with one unit of its budget -/

theorem run_halted {s : State} (h : s.phase = .halted) (budget : Nat) : run budget s = .next (0, s) := by
  cases budget with
  | zero => rfl
  | succ k => rw [run, if_pos ((halted_iff s).2 h)]

theorem run_succ_of_stop {s t : State} (hp : s.phase ≠ .halted) (h : step s = .next t) (ht : t.phase = .halted)
    (k : Nat) : run (k + 1) s = .next (1, t) := by
  simp [run, State.halted, State.continues, hp, h, ht]

theorem run_succ_of_continue {s t : State} (hp : s.phase ≠ .halted) (h : step s = .next t) (ht : t.phase ≠ .halted)
    {k n : Nat} {u : State} (hr : run k t = .next (n, u)) : run (k + 1) s = .next (n + 1, u) := by
  simp [run, State.halted, State.continues, hp, h, ht, hr]

/-- Settles O48, by induction on the budget: a step answers, and its state meets the invariants again. -/
theorem runsAnswerAndKeepTheInvariants : Obligations.RunsAnswerAndKeepTheInvariants := by
  intro budget
  induction budget with
  | zero => exact fun s hs => ⟨0, s, rfl, hs⟩
  | succ k ih =>
    intro s hs
    by_cases hp : s.phase = .halted
    · exact ⟨0, s, run_halted hp _, hs⟩
    obtain ⟨t, ht⟩ := noStepStopsTheModel s hs
    have hInv := everyStepKeepsTheInvariants s t hs ht
    by_cases htp : t.phase = .halted
    · exact ⟨1, t, run_succ_of_stop hp ht htp k, hInv⟩
    · obtain ⟨n, u, hr, hu⟩ := ih t hInv
      exact ⟨n + 1, u, run_succ_of_continue hp ht htp hr, hu⟩

/-! ### The states the host starts from -/

theorem counted_of_idle_of_no_hist {s : State} (hp : s.phase = .idle) (hh : s.hist = []) : s.Counted := by
  rw [counted_iff_of_nothing_staged (.inl hp)]
  simp [State.countTag, hh]

theorem Config.one_le_memSize : 1 ≤ Config.memSize := Nat.succ_pos _

theorem Config.memSize_le : Config.memSize ≤ 65536 := Config.memSizePred.isLt

theorem Memory.read_natCast {m : Memory} {a : Nat} (h : a < m.size) : m.read (a : Int) = .ok (m.get a) :=
  Memory.read_of_valid ⟨Int.natCast_nonneg a, Int.ofNat_lt.2 h⟩

/-- Settles O1: every element but MEM has its value by definition, and MEM lists the contents MEM_INIT. -/
theorem resetLeavesTheResetValues : Obligations.ResetLeavesTheResetValues := by
  refine ⟨rfl, rfl, rfl, rfl, rfl, rfl, rfl, rfl, rfl, rfl, rfl, rfl, rfl,
    ⟨Config.one_le_memSize, Config.memSize_le⟩, fun a ha => ?_⟩
  have hmem : State.reset.mem = Memory.ofContents Config.memSize Config.memInit := rfl
  rw [hmem, Memory.read_natCast (m := Memory.ofContents Config.memSize _) ha, Memory.get_ofContents ha]

/-- Settles O2: a memory of MEM_INIT is canonical, and nothing is staged or recorded. -/
theorem resetMeetsTheInvariants : Obligations.ResetMeetsTheInvariants :=
  ⟨inv_of_idle (Memory.ofContents_wf Config.one_le_memSize Config.memSize_le Config.memInit) rfl rfl,
    counted_of_idle_of_no_hist rfl rfl⟩

/-- Settles O46: `load` writes every element but MEM and EXT_JUMPS, and stages and records nothing. -/
theorem loadRestartsAndKeepsMemory : Obligations.LoadRestartsAndKeepsMemory := fun s lines =>
  ⟨load_prog s lines, load_acc s lines, load_pc s lines, load_flags s lines, load_cycles s lines, load_hist s lines,
    load_phase s lines, rfl, load_ir s lines, load_irasm s lines, load_err s lines, load_mem s lines,
    fun hm => ⟨inv_of_idle hm rfl rfl, counted_of_idle_of_no_hist rfl rfl⟩⟩

end Sys2Proof.Machine
end

section
/-! PROOFS. Lines and display words read back (spec/30_encoding.md sections 1 to 5): decode of encode, the two display round
trips, and the label names, which the operand parser reads as nothing else. -/

namespace Sys2Proof.Machine

/-! ### Decode of encode -/

theorem directForm_operand {ops : List Operand} (h : directForm ops = true) : ∃ a, ops = [.direct a] := by
  match ops, h with
  | [.direct a], _ => exact ⟨a, rfl⟩

theorem immediateForm_operand {ops : List Operand} (h : immediateForm ops = true) : ∃ v, ops = [.immediate v] := by
  match ops, h with
  | [.immediate v], _ => exact ⟨v, rfl⟩

theorem targetForm_operand {ops : List Operand} (h : targetForm ops = true) :
    (∃ a, ops = [.direct a]) ∨ ∃ v, ops = [.immediate v] := by
  match ops, h with
  | [.direct a], _ => exact .inl ⟨a, rfl⟩
  | [.immediate v], _ => exact .inr ⟨v, rfl⟩

theorem emptyForm_operands {ops : List Operand} (h : emptyForm ops = true) : ops = [] :=
  List.length_eq_zero_iff.1 (Laws.emptyForm_length h)

/-- A well-formed instruction has no operand, one Direct or one Immediate (R66). -/
theorem Instr.operands_of_wf {i : Instr} (h : i.wf = true) :
    i.operands = [] ∨ (∃ a, i.operands = [.direct a]) ∨ ∃ v, i.operands = [.immediate v] := by
  cases i with
  | add | sub | mul | div | and | or | xor | lda | sta | cmp => exact .inr (.inl (directForm_operand h))
  | ldi => exact .inr (.inr (immediateForm_operand h))
  | jmp | jz | jnz | jc | jnc | jv | jnv | jn | jnn => exact .inr (targetForm_operand h)
  | not | halt | nop => exact .inl (emptyForm_operands h)

theorem decode_encode_of_operand {i : Instr} {o : Operand} (ho : i.operands = [o])
    (hl : LineDecodes i.mnemonic i.mnemonic.instr o) : decode (encode i) = .ok i :=
  calc decode (encode i) = decode (compiledLine i.mnemonic.name [o.token]) := by rw [encode, ho]; rfl
    _ = .ok (i.mnemonic.instr [o]) := hl
    _ = .ok i := by rw [← ho, i.instr_of_parts]

theorem decode_encode_of_no_operand {i : Instr} (ho : i.operands = []) : decode (encode i) = .ok i :=
  calc decode (encode i) = decode i.mnemonic.name := by rw [encode, ho]; rfl
    _ = .ok (i.mnemonic.instr []) := decode_name _
    _ = .ok i := by rw [← ho, i.instr_of_parts]

/-- Settles O50: the compiled line is the mnemonic alone or with one token, and the token of a Direct and of an Immediate
reads back as it, at every value. -/
theorem decodeOfEncodeIsTheInstruction : Obligations.DecodeOfEncodeIsTheInstruction := by
  intro i hwf
  rcases Instr.operands_of_wf hwf with ho | ⟨a, ho⟩ | ⟨v, ho⟩
  · exact decode_encode_of_no_operand ho
  · exact decode_encode_of_operand ho (lineDecodes_direct (fun _ => rfl) a)
  · exact decode_encode_of_operand ho (lineDecodes_immediate (fun _ => rfl) v)

/-- Settles O10, by running the decoder on each line. -/
theorem sampleLinesDecode : Obligations.SampleLinesDecode := by
  unfold Obligations.SampleLinesDecode
  decide

/-! ### The display round trips -/

/-- The word that shows an operand is known by its two fields. -/
theorem ShownAs.encode_eq {m : Mnemonic} {o : DisplayOperand} {w : BitVec 16} (h : ShownAs m o (w.extractLsb' 0 12).toNat)
    {opcodeOf : Mnemonic → Nat} (ho : opcodeOf m = (w.extractLsb' 12 4).toNat) :
    displayEncode opcodeOf m o = .ok (.w16 w) := by
  obtain ⟨v, hv, hn⟩ := h opcodeOf (by rw [ho]; exact Nat.le_of_lt_succ (w.extractLsb' 12 4).isLt)
  have hvw : v = w := by
    apply BitVec.eq_of_toNat_eq
    have hw := w.isLt
    rw [hn, ho]
    simp only [BitVec.extractLsb'_toNat, Nat.shiftRight_eq_div_pow]
    omega
  rw [hv, hvw]

/-- Settles O52: the opcode field finds a mnemonic with that opcode, and the operand field is shown again as itself, a zero
field as Immediate 0 and any other as Direct. -/
theorem displayWordsRoundTrip : Obligations.DisplayWordsRoundTrip := by
  refine fun opcodeOf w => ⟨fun ⟨k, hk⟩ => ?_, fun hnone => ?_⟩
  · cases hm : mnemonicOfOpcode opcodeOf (w.extractLsb' 12 4).toNat with
    | none => exact absurd hk (mnemonicOfOpcode_none hm k)
    | some m =>
      have ho := mnemonicOfOpcode_some hm
      have hf : (w.extractLsb' 0 12).toNat ≤ 4095 := Nat.le_of_lt_succ (w.extractLsb' 0 12).isLt
      refine ⟨m, _, by rw [displayDecode16, hm]; rfl, ?_⟩
      split_ifs with h0
      · exact ShownAs.encode_eq (by rw [h0]; exact shownAs_immediate m 0 (Nat.zero_le _)) ho
      · exact (shownAs_direct m _ hf).encode_eq ho
  · cases hm : mnemonicOfOpcode opcodeOf (w.extractLsb' 12 4).toNat with
    | none => rw [displayDecode16, hm]; rfl
    | some m => exact absurd (mnemonicOfOpcode_some hm) (hnone m)

/-- An Immediate that is shown in 32 bits has a 4-bit opcode and the layout of R74. -/
theorem displayEncode_immediate_wide {opcodeOf : Mnemonic → Nat} {m : Mnemonic} {i : Int} {w : BitVec 32}
    (h : displayEncode opcodeOf m (.immediate i) = .ok (.w32 w)) :
    opcodeOf m ≤ 15 ∧ w = displayWord32 (mask16 i) (opcodeOf m) := by
  simp only [displayEncode] at h
  split_ifs at h with ho hi
  · cases h
  · exact ⟨by omega, by simpa [eq_comm] using h⟩

/-- Settles O53: the low field of the wide word is 0, its opcode names the mnemonic alone, and its high half is the
Immediate mod 2^16. -/
theorem wideDisplayWordsDecode : Obligations.WideDisplayWordsDecode := by
  intro opcodeOf m i w hinj h
  obtain ⟨ho, rfl⟩ := displayEncode_immediate_wide h
  rw [displayDecode32, if_pos (displayWord32_low _ ho), displayWord32_opcode _ ho,
    mnemonicOfOpcode_of_injective hinj, displayWord32_immediate _ ho, mask16_toNat]
  rfl

/-! ### Label names -/

theorem isLabelChar_ne {c d : Char} (hc : isLabelChar c = true) (hd : isLabelChar d = false) : c ≠ d := by
  rintro rfl
  simp [hc] at hd

theorem isLabelChar_no_space {c : Char} (hc : isLabelChar c = true) : isSpace c = false := by
  have h1 : c ≠ ' ' := isLabelChar_ne hc (by decide)
  have h2 : c ≠ '\t' := isLabelChar_ne hc (by decide)
  simp [isSpace, h1, h2]

theorem isLabelChar_of_isLabelStart {c : Char} (hc : isLabelStart c = true) : isLabelChar c = true := by
  simp [isLabelChar, hc]

theorem decDigit_of_isLabelStart {c : Char} (hc : isLabelStart c = true) : decDigit c = none := by
  simp only [isLabelStart, Bool.or_eq_true, Bool.and_eq_true, decide_eq_true_eq, beq_iff_eq] at hc
  rcases hc with (h | h) | rfl
  · exact if_neg (by omega)
  · exact if_neg (by omega)
  · rfl

/-- A label name by its first character and all its characters (R82). -/
theorem isLabelName_cons {c : Char} {cs : Line} (h : isLabelName (c :: cs) = true) :
    isLabelStart c = true ∧ ∀ d ∈ c :: cs, isLabelChar d = true := by
  obtain ⟨hstart, hall⟩ := Bool.and_eq_true_iff.1 h
  exact ⟨hstart, List.forall_mem_cons.2 ⟨isLabelChar_of_isLabelStart hstart, List.all_eq_true.1 hall⟩⟩

theorem parseConstant_of_isLabelStart {c : Char} (hc : isLabelStart c = true) (cs : Line) :
    parseConstant (c :: cs) = none := by
  have hsign : c ≠ '-' := by rintro rfl; cases hc
  simp [parseConstant, takeSign, hsign, digitsValue, digitsFrom, decDigit_of_isLabelStart hc]

theorem afterHexMark_of_isLabelStart {c : Char} (hc : isLabelStart c = true) (cs : Line) :
    afterHexMark (c :: cs) = none := by
  have hzero : c ≠ '0' := by rintro rfl; cases hc
  cases cs <;> simp [afterHexMark, hzero]

/-- Settles O54: a label name has no whitespace and no bracket, and its first character begins no number. -/
theorem labelNamesAreNeverNumbers : Obligations.LabelNamesAreNeverNumbers := by
  intro name hname
  cases name with
  | nil => cases hname
  | cons c cs =>
    obtain ⟨hstart, hchars⟩ := isLabelName_cons hname
    have htrim : trim (c :: cs) = c :: cs := trim_of_no_space fun d hd => isLabelChar_no_space (hchars d hd)
    have hbracket : bracketed (c :: cs) = none :=
      bracketed_of_head fun h => isLabelChar_ne (hchars _ h) (by decide) rfl
    simp [parseOperand, htrim, hbracket, afterHexMark_of_isLabelStart hstart, parseConstant_of_isLabelStart hstart]

end Sys2Proof.Machine
end

section
/-! PROOFS. The data instructions (spec/41_arithmetic.md, spec/42_logic.md, spec/43_transfer.md, spec/44_compare.md): each is
one of the shared bodies, so that only its result has to be put into the terms of the statement. -/

namespace Sys2Proof.Machine

/-! ### MUL and DIV -/

theorem mask16_rawProduct (a m : Word) : mask16 (rawProduct a m) = BitVec.ofNat 16 (a.toNat * m.toNat) :=
  BitVec.ofInt_natCast 16 (a.toNat * m.toNat)

theorem mask16_rawQuotient (a m : Word) : mask16 (rawQuotient a m) = BitVec.ofNat 16 (a.toNat / m.toNat) :=
  BitVec.ofInt_natCast 16 (a.toNat / m.toNat)

/-- Settles O14: MUL is a class-D read that writes the masked raw product to ACC alone. -/
theorem mulKeepsTheLowHalf : Obligations.MulKeepsTheLowHalf :=
  readRule_of_body (fun _ => rfl) (fun _ _ => rfl) fun _ _ => by
    rw [mask16_rawProduct]
    rfl

theorem exec_div_of_ne_zero {s : State} {a : Int} (ha : s.validAddress a) (hm : s.mem.get a.toNat ≠ 0#16) :
    exec (.div [.direct a]) s = .next (s.epilogue .sequential
      (s.setAcc (BitVec.ofNat 16 (s.acc.toNat / (s.mem.get a.toNat).toNat)))) := by
  simp [exec, execDiv, readBody_valid ha, hm, mask16_rawQuotient, Except.map]

/-- Settles O15: the body reads its cell as class D does, and then tests it for 0. -/
theorem divStoresTheQuotientOrHalts : Obligations.DivStoresTheQuotientOrHalts :=
  ⟨⟨lineDecodes_direct fun _ => rfl, shownAs_direct .div⟩, directErrors_of_class_d (m := .div) rfl,
    fun _ _ ha hm => ⟨_, exec_div_of_ne_zero ha hm, completed_sequential rfl, rfl, rfl, rfl, fun _ => rfl⟩,
    fun _ _ ha hzero => haltsWith_of_exec (exec_div_by_zero ha hzero)⟩

/-! ### AND, OR, XOR and NOT -/

theorem and_eq_ofFnLE (a m : Word) : a &&& m = BitVec.ofFnLE (fun i : Fin 16 => a.getLsb i && m.getLsb i) := by
  ext i hi
  simp

theorem or_eq_ofFnLE (a m : Word) : a ||| m = BitVec.ofFnLE (fun i : Fin 16 => a.getLsb i || m.getLsb i) := by
  ext i hi
  simp

theorem xor_eq_ofFnLE (a m : Word) : a ^^^ m = BitVec.ofFnLE (fun i : Fin 16 => a.getLsb i ^^ m.getLsb i) := by
  ext i hi
  simp

/-- Settles O17: each is a class-D read that writes the word operator's result, bit by bit, to ACC alone. -/
theorem logicCombinesBitByBit : Obligations.LogicCombinesBitByBit := by
  refine ⟨readRule_of_body (fun _ => rfl) (fun _ _ => rfl) fun _ _ => ?_,
    readRule_of_body (fun _ => rfl) (fun _ _ => rfl) fun _ _ => ?_,
    readRule_of_body (fun _ => rfl) (fun _ _ => rfl) fun _ _ => ?_⟩
  · rw [← and_eq_ofFnLE]
    rfl
  · rw [← or_eq_ofFnLE]
    rfl
  · rw [← xor_eq_ofFnLE]
    rfl

theorem not_eq_ofNat (a : Word) : ~~~a = BitVec.ofNat 16 (0xFFFF - a.toNat) := by
  apply BitVec.eq_of_toNat_eq
  have ha := a.isLt
  rw [BitVec.toNat_not, BitVec.toNat_ofNat]
  omega

/-- Settles O18: NOT is a class-N instruction whose body complements ACC. -/
theorem notComplementsTheAccumulator : Obligations.NotComplementsTheAccumulator :=
  bareRule_of_body rfl fun ops s => by
    simp only [← not_eq_ofNat]
    rfl

/-! ### LDA, STA and LDI -/

/-- Settles O19: LDA is a class-D read that writes the cell to ACC alone. -/
theorem ldaLoadsTheCell : Obligations.LdaLoadsTheCell :=
  readRule_of_body (fun _ => rfl) (fun _ _ => rfl) fun _ _ => rfl

theorem exec_sta_valid {s : State} {a : Int} (ha : s.validAddress a) :
    exec (.sta [.direct a]) s = .next (s.epilogue .sequential (s.setMem (s.mem.set a.toNat s.acc))) := by
  simp [exec, execSta, Memory.write_of_valid ha, Except.bind, Except.map]

theorem sameMemoryExcept_of_write {s t : State} {a : Int} {v : Word} (h : s.mem.write a v = .ok t.mem) :
    sameMemoryExcept s t a :=
  ⟨Memory.write_size h, fun _ hb => Memory.read_write_other h hb⟩

/-- Settles O21: STA is one write through the memory port, which touches one cell of any memory. -/
theorem staCompletesAndTouchesOneCell : Obligations.StaCompletesAndTouchesOneCell := fun _ _ ha =>
  ⟨_, exec_sta_valid ha, completed_sequential rfl, rfl, rfl, sameMemoryExcept_of_write (Memory.write_of_valid ha _)⟩

/-- Settles O20: the write through the port reads back in a canonical memory, and keeps it canonical. -/
theorem staStoresTheAccumulator : Obligations.StaStoresTheAccumulator := by
  refine ⟨⟨lineDecodes_direct fun _ => rfl, shownAs_direct .sta⟩, directErrors_sta, fun s a hm ha => ?_⟩
  have hw := Memory.write_of_valid ha s.acc
  exact ⟨_, exec_sta_valid ha, completed_sequential rfl, rfl, rfl, Memory.read_write_same hm hw,
    sameMemoryExcept_of_write hw, Memory.write_keeps_wf hm hw⟩

theorem mask16_eq_ofNat (i : Int) : mask16 i = BitVec.ofNat 16 (i % 65536).toNat := by
  apply BitVec.eq_of_toNat_eq
  have h := mask16_toNat i
  rw [BitVec.toNat_ofNat]
  omega

theorem exec_ldi_immediate {i : Int} (hi : inI64 i = true) (s : State) :
    exec (.ldi [.immediate i]) s = .next (s.epilogue .sequential (s.setAcc (mask16 i))) := by
  simp [exec, execLdi, resolveImmediate_immediate hi, Except.map]

theorem exec_ldi_of_noSingleOperand {ops : List Operand} (h : noSingleOperand ops = true) (s : State) :
    exec (.ldi ops) s = .next (s.errorHalt .syntaxError) := by
  simp [exec, execLdi, resolveImmediate, resolveOne_of_noSingleOperand h, Except.bind, Except.map]

/-- Settles O22: an Immediate inside i64 is masked into ACC, a Direct stops at the mode check, and any other operands stop
before it. -/
theorem ldiLoadsTheMaskedImmediate : Obligations.LdiLoadsTheMaskedImmediate :=
  ⟨lineDecodes_immediate fun _ => rfl, shownAs_immediate .ldi,
    fun s i hi => ⟨_, exec_ldi_immediate hi s, completed_sequential rfl, mask16_eq_ofNat i, rfl, rfl, fun _ => rfl⟩,
    fun s a => haltsWith_of_exec (exec_ldi_direct s a),
    fun s _ hops => haltsWith_of_exec (exec_ldi_of_noSingleOperand hops s)⟩

/-! ### CMP, and the order that SUB and CMP leave in the flags -/

/-- Settles O23: CMP is a class-D read that writes the flags of the raw difference alone. -/
theorem cmpSetsTheFlagsOfSub : Obligations.CmpSetsTheFlagsOfSub :=
  readRule_of_body (fun _ => rfl) (fun _ _ => rfl) fun _ _ => by
    rw [updateFlags_rawDifference]
    rfl

theorem CompletesWith.flags_of_exec {i : Instr} {s t : State} {w : Word} {f : Flags} (h : CompletesWith i s w f)
    (hx : exec i s = .next t) : t.flags = f := by
  obtain ⟨u, hu, -, -, hf, -⟩ := h
  cases hx.symm.trans hu
  exact hf

/-- Z, N and C of a raw difference are the three ways two numbers can compare, and one of them holds. -/
theorem flags_order {a m : Word} {f : Flags} (hz : f.z = decide (a = m)) (hc : f.c = decide (a.toNat > m.toNat))
    (hn : f.n = decide (a.toNat < m.toNat)) :
    (f.z = true ↔ a.toNat = m.toNat) ∧ (f.n = true ↔ a.toNat < m.toNat) ∧ (f.c = true ↔ a.toNat > m.toNat) ∧
      f.z.toNat + f.n.toNat + f.c.toNat = 1 := by
  have hz' : f.z = decide (a.toNat = m.toNat) := by rw [hz, decide_eq_decide, BitVec.toNat_inj]
  refine ⟨by rw [hz', decide_eq_true_iff], by rw [hn, decide_eq_true_iff], by rw [hc, decide_eq_true_iff], ?_⟩
  rw [hz', hn, hc]
  rcases Nat.lt_trichotomy a.toNat m.toNat with h | h | h
  · simp [h, Nat.ne_of_lt h, Nat.le_of_lt h]
  · simp [h]
  · simp [h, Nat.ne_of_gt h, Nat.le_of_lt h]

/-- Settles O25: both leave the flags of the raw difference, which order the operands. -/
theorem subAndCmpOrderTheirOperands : Obligations.SubAndCmpOrderTheirOperands := by
  rintro i s t a (rfl | rfl) ha hx
  · have hf := (subStoresTheMaskedDifference.completes s a ha).flags_of_exec hx
    exact flags_order (by rw [hf]) (by rw [hf]) (by rw [hf])
  · have hf := (cmpSetsTheFlagsOfSub.completes s a ha).flags_of_exec hx
    exact flags_order (by rw [hf]) (by rw [hf]) (by rw [hf])

/-! ### What an execute phase does not write -/

/-- What the state after an execute phase is: an epilogue of a body's state, or an error halt. -/
theorem exec_next_cases {i : Instr} {s t : State} (h : exec i s = .next t) :
    (∃ adv u, BodyEffect i s adv u ∧ t = s.epilogue adv u) ∨ ∃ e, e ≠ .none ∧ t = s.errorHalt e := by
  rcases exec_cases i s with ⟨adv, u, hx, hb⟩ | ⟨e, he, hx⟩
  · exact .inl ⟨adv, u, hb, Host.Outcome.next.inj (h.symm.trans hx)⟩
  · exact .inr ⟨e, he, Host.Outcome.next.inj (h.symm.trans hx)⟩

/-- Settles O26: a body writes the flags only for the three, the epilogue and the error halt never. -/
theorem onlyAddSubCmpWriteFlags : Obligations.OnlyAddSubCmpWriteFlags := by
  intro i s t h hadd hsub hcmp
  rcases exec_next_cases h with ⟨adv, u, hb, rfl⟩ | ⟨e, -, rfl⟩
  · obtain ⟨-, hflags, -⟩ := epilogue_keeps s u adv
    rw [hflags, hb.flags (by simp [Mnemonic.writesFlags, hadd, hsub, hcmp])]
  · rw [errorHalt_flags]

theorem writesAcc_eq_false : ∀ m ∈ [Mnemonic.sta, .cmp, .jmp, .jz, .jnz, .jc, .jnc, .jv, .jnv, .jn, .jnn, .halt, .nop],
    Mnemonic.writesAcc m = false := by decide

/-- Settles O27: a body writes ACC only for the ten others, the epilogue and the error halt never. -/
theorem onlyTheListedInstructionsWriteAcc : Obligations.OnlyTheListedInstructionsWriteAcc := by
  intro i s t h hm
  rcases exec_next_cases h with ⟨adv, u, hb, rfl⟩ | ⟨e, -, rfl⟩
  · obtain ⟨hacc, -⟩ := epilogue_keeps s u adv
    rw [hacc, hb.acc (writesAcc_eq_false _ hm)]
  · rw [errorHalt_acc]

theorem BodyEffect.mem_of_ne_sta {i : Instr} {s t : State} {adv : Advance} (h : BodyEffect i s adv t)
    (hi : i.mnemonic ≠ .sta) : t.mem = s.mem := by
  rcases h.mem with hm | ⟨a, rfl, -⟩
  · exact hm
  · exact absurd rfl hi

theorem sameMemory_of_mem_eq {s t : State} (h : t.mem = s.mem) : sameMemory s t :=
  ⟨by rw [h], fun a => by rw [h]⟩

/-- Settles O28: a body other than STA's leaves MEM, and so do the epilogue and the error halt. -/
theorem onlyStaWritesMemory : Obligations.OnlyStaWritesMemory := by
  intro i s t h hi
  refine sameMemory_of_mem_eq ?_
  rcases exec_next_cases h with ⟨adv, u, hb, rfl⟩ | ⟨e, -, rfl⟩
  · obtain ⟨-, -, hmem, -⟩ := epilogue_keeps s u adv
    rw [hmem, hb.mem_of_ne_sta hi]
  · rw [errorHalt_mem]

end Sys2Proof.Machine
end

section
/-! PROOFS. The jumps and HALT (spec/45_control.md), and the error halts of an execute phase (spec/60_exceptions.md sections
2 and 3): the rule of every class-J mnemonic, what follows a jump past the end, and the order of the checks. -/

namespace Sys2Proof.Machine

/-! ### The jumps -/

/-- Settles O29: JMP is a jump whose condition always holds. -/
theorem jmpSetsPcToTheTarget : Obligations.JmpSetsPcToTheTarget := jumpRule_of_body (fun _ => rfl) fun _ _ _ => rfl

/-- Settles O30: JZ and JNZ are jumps whose conditions are Z and not Z. -/
theorem zeroJumpsFollowZ : Obligations.ZeroJumpsFollowZ :=
  ⟨jumpRule_of_body (fun _ => rfl) fun _ _ _ => rfl, jumpRule_of_body (fun _ => rfl) fun _ _ _ => rfl⟩

/-- Settles O31: JC and JNC are jumps whose conditions are C and not C. -/
theorem carryJumpsFollowC : Obligations.CarryJumpsFollowC :=
  ⟨jumpRule_of_body (fun _ => rfl) fun _ _ _ => rfl, jumpRule_of_body (fun _ => rfl) fun _ _ _ => rfl⟩

/-- Settles O32: under EXT_JUMPS the guard of the four is the jump behind it. -/
theorem extendedJumpsFollowVAndN : Obligations.ExtendedJumpsFollowVAndN :=
  ⟨jumpRule_of_body (fun _ => rfl) fun _ _ h => execute_extendedBody h,
    jumpRule_of_body (fun _ => rfl) fun _ _ h => execute_extendedBody h,
    jumpRule_of_body (fun _ => rfl) fun _ _ h => execute_extendedBody h,
    jumpRule_of_body (fun _ => rfl) fun _ _ h => execute_extendedBody h⟩

/-- The rule of every class-J mnemonic, where it is implemented. -/
theorem jumpRule_of_class_j {m : Mnemonic} (h : m.operandClass = .j) :
    JumpRule m m.instr (fun s => m.implemented s.extJumps = true) (fun s => jumpTaken m s.flags) := by
  cases m with
  | jmp | jz | jnz | jc | jnc => exact jumpRule_of_body (fun _ => rfl) fun _ _ _ => rfl
  | jv | jnv | jn | jnn => exact jumpRule_of_body (fun _ => rfl) fun _ _ hx => execute_extendedBody hx
  | add | sub | mul | div | and | or | xor | not | lda | sta | ldi | cmp | halt | nop => cases h

theorem leavesProgram_of_jumpsTo {i : Instr} {s : State} {target : Nat} (h : JumpsTo i s target)
    (hend : s.prog.length ≤ target) : LeavesProgram i s target := by
  obtain ⟨t, hx, hdone, hacc, hflags, hmem⟩ := h
  have hpast : t.prog.length ≤ t.pc := by rw [hdone.prog, hdone.pc]; exact hend
  exact ⟨t, hx, hdone, hacc, hflags, hmem, (fetchPastTheEndHaltsNormally t hdone.phase hpast).1⟩

/-- Settles O34: a taken jump is in phase Idle at its target, and the fetch there is past the end. -/
theorem jumpPastTheEndHaltsAtTheNextFetch : Obligations.JumpPastTheEndHaltsAtTheNextFetch := by
  intro m s hclass himpl htaken
  have hrule := jumpRule_of_class_j hclass
  refine ⟨fun i hi hend => leavesProgram_of_jumpsTo (hrule.takenImmediate s i himpl hi htaken (by omega)) (by omega),
    fun a ha hend => leavesProgram_of_jumpsTo (hrule.takenDirect s a himpl ha htaken) hend⟩

/-! ### Mnemonics that are not implemented -/

theorem execute_extendedBody_unknown {s : State} (h : s.extJumps = false) (body : State → BodyResult) :
    execute (extendedBody body) s = .next (s.errorHalt .unknownInstruction) := by
  simp [extendedBody, h]

/-- Settles O33: without EXT_JUMPS the guard of the four raises UnknownInstruction before it looks at the operands. -/
theorem extendedJumpsAreUnknownByDefault : Obligations.ExtendedJumpsAreUnknownByDefault := fun _ _ h =>
  ⟨haltsWith_of_exec (execute_extendedBody_unknown h _), haltsWith_of_exec (execute_extendedBody_unknown h _),
    haltsWith_of_exec (execute_extendedBody_unknown h _), haltsWith_of_exec (execute_extendedBody_unknown h _)⟩

theorem haltsWith_of_not_implemented {m : Mnemonic} {s : State} (h : m.implemented s.extJumps = false)
    (ops : List Operand) : HaltsWith (m.instr ops) s .unknownInstruction := by
  cases m with
  | jv | jnv | jn | jnn => exact haltsWith_of_exec (execute_extendedBody_unknown h _)
  | add | sub | mul | div | and | or | xor | not | lda | sta | ldi | cmp | jmp | jz | jnz | jc | jnc | halt | nop =>
    cases h

/-! ### HALT and the operand of class N -/

theorem noneBody_of_operand {ops : List Operand} (h : ops ≠ []) (adv : Advance) (result : State → State) (s : State) :
    noneBody ops adv result s = .error .syntaxError := by
  cases ops with
  | nil => exact absurd rfl h
  | cons => rfl

theorem haltsWith_of_class_n {m : Mnemonic} (h : m.operandClass = .n) {ops : List Operand} (hops : ops ≠ [])
    (s : State) : HaltsWith (m.instr ops) s .syntaxError := by
  cases m with
  | not | halt | nop =>
    refine haltsWith_of_exec ((execute_eq _ s).trans ?_)
    rw [noneBody_of_operand hops, afterBody_error]
  | add | sub | mul | div | and | or | xor | lda | sta | ldi | cmp | jmp | jz | jnz | jc | jnc | jv | jnv | jn | jnn =>
    cases h

/-- Settles O35: the body of HALT writes nothing, and its epilogue writes PHASE and HIST alone. -/
theorem haltStopsTheProcessor : Obligations.HaltStopsTheProcessor :=
  ⟨decode_name .halt, shownAs_none .halt, fun s => ⟨s.epilogue .stop s, rfl, rfl, rfl, rfl⟩,
    fun s _ hops => haltsWith_of_class_n (m := .halt) rfl hops s⟩

/-! ### Error halts -/

/-- Settles O38: a body that completes leaves ERR as it was, so that a new cause is an error halt's. -/
theorem errorHaltsArePrecise : Obligations.ErrorHaltsArePrecise := by
  intro i s t h hs ht
  rcases exec_next_cases h with ⟨adv, u, hb, rfl⟩ | ⟨e, -, rfl⟩
  · obtain ⟨-, -, -, -, -, herr, -⟩ := epilogue_keeps s u adv
    exact absurd (by rw [herr, hb.err, hs]) ht
  · exact errorHalted_errorHalt s e

/-! ### The order of the checks -/

theorem eq_ldi_of_class_i {m : Mnemonic} (h : m.operandClass = .i) : m = .ldi := by
  cases m with
  | ldi => rfl
  | add | sub | mul | div | and | or | xor | not | lda | sta | cmp | jmp | jz | jnz | jc | jnc | jv | jnv | jn | jnn |
    halt | nop => cases h

theorem noSingleOperand_of_length_ne_one {ops : List Operand} (h : ops.length ≠ 1) : noSingleOperand ops = true := by
  match ops, h with
  | [], _ => rfl
  | o :: _ :: _, _ => cases o <;> rfl

section
variable {m : Mnemonic} {s : State} (himpl : m.implemented s.extJumps = true)
include himpl

/-- The count and the token are checked before the mode, in every class with one operand. -/
theorem haltsWith_of_noSingleOperand (hclass : m.operandClass ≠ .n) {ops : List Operand}
    (hops : noSingleOperand ops = true) : HaltsWith (m.instr ops) s .syntaxError := by
  cases hc : m.operandClass with
  | d => exact (directErrors_of_class_d hc).operands s ops hops
  | i =>
    obtain rfl := eq_ldi_of_class_i hc
    exact haltsWith_of_exec (exec_ldi_of_noSingleOperand hops s)
  | j => exact (jumpRule_of_class_j hc).operands s ops himpl hops
  | n => exact absurd hc hclass

theorem haltsWith_of_wrong_count {ops : List Operand} (hops : ops.length ≠ m.operandClass.roles.length) :
    HaltsWith (m.instr ops) s .syntaxError := by
  cases hc : m.operandClass with
  | n => exact haltsWith_of_class_n hc (by rintro rfl; simp [hc, OperandClass.roles] at hops) s
  | d | i | j =>
    refine haltsWith_of_noSingleOperand himpl (by simp [hc]) (noSingleOperand_of_length_ne_one ?_)
    simpa [hc, OperandClass.roles] using hops

theorem haltsWith_of_invalid_address (hclass : m.operandClass = .d ∨ m.operandClass = .j) {a : Int}
    (ha : ¬ s.validAddress a) : HaltsWith (m.instr [.direct a]) s .outOfBounds := by
  rcases hclass with hc | hc
  · exact (directErrors_of_class_d hc).bounds s a ha
  · exact (jumpRule_of_class_j hc).bounds s a himpl ha

end

/-- A decoded line with a declared mnemonic runs the execute phase of its instruction. -/
theorem step_decoded_name {s : State} {m : Mnemonic} {ops : List Line} (hp : s.phase = .decoded m.name ops)
    (hpc : s.pc < s.prog.length) : step s = exec (m.instr (ops.map parseOperand)) s :=
  step_decoded hp (List.getElem?_eq_getElem hpc) (by simp [instrOfTokens])

/-- Settles O39: each check raises its error over every operand that the earlier ones let pass. -/
theorem errorsAreReportedInOrder : Obligations.ErrorsAreReportedInOrder := by
  intro s m ops hp hpc
  rw [step_decoded_name hp hpc]
  refine ⟨fun himpl => haltsWith_of_not_implemented himpl _,
    fun himpl => ⟨?count, ?token, ?modeD, ?modeI, ?address⟩⟩
  case count => exact fun hcount => haltsWith_of_wrong_count himpl (by simpa using hcount)
  case token =>
    rintro hclass token rfl htoken
    exact haltsWith_of_noSingleOperand himpl hclass htoken
  case modeD =>
    rintro hclass token i rfl htoken hi
    rw [List.map_singleton, htoken]
    exact (directErrors_of_class_d hclass).mode s i hi
  case modeI =>
    rintro hclass token a rfl htoken
    obtain rfl := eq_ldi_of_class_i hclass
    rw [List.map_singleton, htoken]
    exact haltsWith_of_exec (exec_ldi_direct s a)
  case address =>
    rintro hclass token a rfl htoken ha
    rw [List.map_singleton, htoken]
    exact haltsWith_of_invalid_address himpl hclass ha

end Sys2Proof.Machine
end

section
/-! PROOFS. The phases of a step and the host's operations (spec/40_cycle.md sections 1 to 7, spec/70_reset_and_hazards.md
section 2): what each phase answers and leaves alone, the steps of a run, and the host's access to memory. -/

namespace Sys2Proof.Machine

/-! ### The phases, one at a time -/

/-- Settles O3: at reset PC = NPROG = 0, so that the first fetch is past the end. -/
theorem firstStepAfterResetHalts : Obligations.FirstStepAfterResetHalts :=
  ⟨_, (fetchPastTheEndHaltsNormally State.reset rfl (Nat.le_refl 0)).1, rfl, rfl, rfl, rfl⟩

theorem Mnemonic.ofName_eq_none {mnem : Line} (h : ∀ m : Mnemonic, m.name ≠ mnem) : Mnemonic.ofName mnem = none := by
  cases hm : Mnemonic.ofName mnem with
  | none => rfl
  | some m => exact absurd (Mnemonic.ofName_eq_some hm) (h m)

theorem decodeLine_ir_of_name {s : State} {line : Line} {m : Mnemonic} (h : (split line).1 = m.name) :
    (s.decodeLine line).ir = some (displayOpcode m) := by
  rw [decodeLine_ir, h, Mnemonic.ofName_name, Option.map_some]

theorem decodeLine_ir_of_undeclared {s : State} {line : Line} (h : ∀ m : Mnemonic, (split line).1 ≠ m.name) :
    (s.decodeLine line).ir = none := by
  rw [decodeLine_ir, Mnemonic.ofName_eq_none fun m hm => h m hm.symm, Option.map_none]

/-- Settles O6: the lookup of the mnemonic decides IR alone. -/
theorem decodeSplitsTheStagedLine : Obligations.DecodeSplitsTheStagedLine := fun s line hp =>
  ⟨s.decodeLine line, step_fetched hp, (continues_iff _).2 (by simp), fun _ => decodeLine_ir_of_name,
    decodeLine_ir_of_undeclared, rfl⟩

/-- Settles O7. -/
theorem haltedStepChangesNothing : Obligations.HaltedStepChangesNothing := fun s hp =>
  ⟨step_halted hp, (continues_eq_false_iff s).2 hp⟩

/-- Settles O8: neither fetch nor decode moves PC or writes PROG, so that a line still stands at PC in the third step. -/
theorem threeStepsRunTheDecodedInstruction : Obligations.ThreeStepsRunTheDecodedInstruction :=
  fun s line _ hidle hline hdec =>
    ⟨step_idle_line hidle hline, step_fetchLine s line, step_decodeLine_fetchLine hline hdec⟩

/-- Settles O9: the lookup of an undeclared mnemonic fails, and the execute phase answers UnknownInstruction. -/
theorem undeclaredMnemonicHalts : Obligations.UndeclaredMnemonicHalts := by
  intro s mnem ops hp hpc hm
  have hi : instrOfTokens mnem ops = .error (.unknownMnemonic mnem) := by
    rw [instrOfTokens, Mnemonic.ofName_eq_none hm]
  exact ⟨_, step_unknown hp (List.getElem?_eq_getElem hpc) hi, errorHalted_errorHalt s _⟩

/-! ### What a step returns -/

theorem continues_fetchPhase_iff {s : State} : s.fetchPhase.continues = true ↔ s.pc < s.prog.length := by
  by_cases hpc : s.pc < s.prog.length
  · simp [fetchPhase_line (List.getElem?_eq_getElem hpc), continues_iff, hpc]
  · simp [fetchPhase_past_end (Nat.le_of_not_lt hpc), continues_iff, hpc]

/-- An execute phase that answers a next state is `exec` of its instruction. -/
theorem exec_of_step_decoded {s t : State} {mnem : Line} {ops : List Line} {i : Instr}
    (hp : s.phase = .decoded mnem ops) (hi : instrOfTokens mnem ops = .ok i) (h : step s = .next t) :
    exec i s = .next t := by
  cases hl : s.prog[s.pc]? with
  | none => simp [step, hp, hl] at h
  | some line => rwa [step_decoded hp hl hi] at h

/-- What an execute phase can end in: the epilogue of its instruction's body, or an error halt. -/
theorem step_decoded_cases {s t : State} {mnem : Line} {ops : List Line} (hp : s.phase = .decoded mnem ops)
    (h : step s = .next t) :
    (∃ i adv u, instrOfTokens mnem ops = .ok i ∧ BodyEffect i s adv u ∧ t = s.epilogue adv u) ∨
      ∃ e, e ≠ .none ∧ t = s.errorHalt e := by
  rcases step_cases h with ⟨hq, -⟩ | ⟨hq, -⟩ | ⟨_, hq, -⟩ | ⟨_, hq, -⟩ | ⟨_, _, i, adv, u, hq, hi, hb, rfl⟩ |
    ⟨_, _, e, -, he, rfl⟩
  · cases hp.symm.trans hq
  · cases hp.symm.trans hq
  · cases hp.symm.trans hq
  · cases hp.symm.trans hq
  · cases hp.symm.trans hq
    exact .inl ⟨i, adv, u, hi, hb, rfl⟩
  · exact .inr ⟨e, he, rfl⟩

theorem epilogue_halted_iff (s t : State) (adv : Advance) : (s.epilogue adv t).phase = .halted ↔ adv = .stop := by
  rw [epilogue_phase]
  split_ifs with h <;> simp [h]

/-- Of a core without an error, the execute phase halts exactly at HALT and at an error. -/
theorem halted_of_execute_iff {s t : State} {mnem : Line} {ops : List Line} (hp : s.phase = .decoded mnem ops)
    (hs : s.err = .none) (h : step s = .next t) :
    t.phase = .halted ↔ instrOfTokens mnem ops = .ok (.halt []) ∨ t.err ≠ .none := by
  constructor
  · intro ht
    rcases step_decoded_cases hp h with ⟨i, adv, u, hi, hb, rfl⟩ | ⟨e, he, rfl⟩
    · obtain ⟨rfl, -⟩ := hb.stop ((epilogue_halted_iff s u adv).1 ht)
      exact .inl hi
    · exact .inr he
  · rintro (hhalt | herr)
    · cases exec_of_step_decoded hp hhalt h
      rfl
    · rcases step_decoded_cases hp h with ⟨i, adv, u, -, hb, rfl⟩ | ⟨e, -, rfl⟩
      · obtain ⟨-, -, -, -, -, hkept, -⟩ := epilogue_keeps s u adv
        exact absurd (by rw [hkept, hb.err, hs]) herr
      · rfl

/-- Settles O43, phase by phase. -/
theorem stepReturnsWhetherExecutionContinues : Obligations.StepReturnsWhetherExecutionContinues := by
  refine fun s t hs h => ⟨fun hp => ?halted, fun hp => ?idle, fun line hp => ?fetched, fun mnem ops hp => ?decoded⟩
  case halted =>
    cases (step_halted hp).symm.trans h
    exact (continues_eq_false_iff s).2 hp
  case idle =>
    cases (step_idle hp).symm.trans h
    exact continues_fetchPhase_iff
  case fetched =>
    cases (step_fetched hp).symm.trans h
    exact ⟨(continues_iff _).2 (by simp), _, _, rfl⟩
  case decoded =>
    rw [continues_eq_false_iff]
    exact halted_of_execute_iff hp (hs.resolve_right (by simp [hp])) h

/-! ### What a step leaves alone -/

/-- Settles O44: no phase writes PROG or EXT_JUMPS, fetch alone writes IRASM, and fetch and decode alone write IR. -/
theorem stepsLeaveTheProgramAlone : Obligations.StepsLeaveTheProgramAlone := by
  intro s t h
  have hsize := step_keeps_mem_size h
  rcases step_cases h with ⟨-, rfl⟩ | ⟨-, -, rfl⟩ | ⟨_, hp, -, rfl⟩ | ⟨line, hp, rfl⟩ |
    ⟨_, _, _, adv, u, -, -, hb, rfl⟩ | ⟨_, _, _, -, -, rfl⟩
  · exact ⟨rfl, hsize, rfl, fun _ => rfl, fun _ _ => rfl⟩
  · exact ⟨rfl, hsize, rfl, fun _ => rfl, fun _ _ => rfl⟩
  · exact ⟨rfl, hsize, rfl, fun hne => absurd hp hne, fun _ hne => absurd hp hne⟩
  · exact ⟨rfl, hsize, rfl, fun _ => rfl, fun hne => absurd hp (hne line)⟩
  · obtain ⟨-, -, -, hir, hirasm, -, hprog, hext⟩ := epilogue_keeps s u adv
    exact ⟨hprog.trans hb.prog, hsize, hext.trans hb.extJumps, fun _ => hirasm.trans hb.irasm,
      fun _ _ => hir.trans hb.ir⟩
  · exact ⟨rfl, hsize, rfl, fun _ => rfl, fun _ _ => rfl⟩

/-- An execute phase counts a cycle if it leaves the phase Idle; otherwise it is HALT's and writes no register. -/
theorem BodyEffect.epilogue_counts {i : Instr} {s u : State} {adv : Advance} (hb : BodyEffect i s adv u) :
    ((s.epilogue adv u).phase = .idle ∧ (s.epilogue adv u).cycles = s.cycles + 1) ∨
      ((s.epilogue adv u).phase ≠ .idle ∧ s.epilogue adv u = s.epilogue .stop s) := by
  cases adv with
  | sequential => exact .inl ⟨rfl, congrArg (· + 1) hb.cycles⟩
  | jumped => exact .inl ⟨rfl, congrArg (· + 1) hb.cycles⟩
  | stop =>
    obtain ⟨-, rfl⟩ := hb.stop rfl
    exact .inr ⟨by simp, rfl⟩

/-- A step is an execute phase that completes and counts a cycle, or it writes no register and no cell. -/
theorem step_counts_or_keeps {s t : State} (h : step s = .next t) :
    (((∃ m ops, s.phase = .decoded m ops) ∧ t.phase = .idle) ∧ t.cycles = s.cycles + 1) ∨
      (¬((∃ m ops, s.phase = .decoded m ops) ∧ t.phase = .idle) ∧
        t.cycles = s.cycles ∧ t.pc = s.pc ∧ t.acc = s.acc ∧ t.flags = s.flags ∧ t.mem = s.mem) := by
  rcases step_cases h with ⟨hp, rfl⟩ | ⟨hp, -, rfl⟩ | ⟨_, hp, -, rfl⟩ | ⟨_, hp, rfl⟩ |
    ⟨mnem, ops, _, adv, u, hp, -, hb, rfl⟩ | ⟨_, _, _, -, -, rfl⟩
  · exact .inr ⟨by simp [hp], rfl, rfl, rfl, rfl, rfl⟩
  · exact .inr ⟨by simp [hp], rfl, rfl, rfl, rfl, rfl⟩
  · exact .inr ⟨by simp [hp], rfl, rfl, rfl, rfl, rfl⟩
  · exact .inr ⟨by simp [hp], rfl, rfl, rfl, rfl, rfl⟩
  · rcases hb.epilogue_counts with ⟨hidle, hcycles⟩ | ⟨hne, heq⟩
    · exact .inl ⟨⟨⟨mnem, ops, hp⟩, hidle⟩, hcycles⟩
    · exact .inr ⟨fun hx => hne hx.2, by rw [heq]; exact ⟨rfl, rfl, rfl, rfl, rfl⟩⟩
  · exact .inr ⟨by simp, rfl, rfl, rfl, rfl, rfl⟩

/-- A step in Halted or past the end records nothing, any other records one entry. -/
theorem step_records {s t : State} (h : step s = .next t) :
    ((s.phase = .halted ∨ (s.phase = .idle ∧ s.prog.length ≤ s.pc)) ∧ t.hist = s.hist) ∨
      (¬(s.phase = .halted ∨ (s.phase = .idle ∧ s.prog.length ≤ s.pc)) ∧ ∃ e, t.hist = s.hist ++ [e]) := by
  rcases step_cases h with ⟨hp, rfl⟩ | ⟨hp, hl, rfl⟩ | ⟨_, hp, hl, rfl⟩ | ⟨_, hp, rfl⟩ |
    ⟨_, _, _, _, _, hp, -, hb, rfl⟩ | ⟨_, _, _, hp, -, rfl⟩
  · exact .inl ⟨.inl hp, rfl⟩
  · exact .inl ⟨.inr ⟨hp, List.getElem?_eq_none_iff.1 hl⟩, rfl⟩
  · obtain ⟨hpc, -⟩ := List.getElem?_eq_some_iff.1 hl
    exact .inr ⟨by simp [hp, hpc], _, rfl⟩
  · exact .inr ⟨by simp [hp], _, rfl⟩
  · exact .inr ⟨by simp [hp], _, hb.epilogue_hist⟩
  · exact .inr ⟨by simp [hp], _, rfl⟩

/-- Settles O45: the two dichotomies of a step, on its registers and on its history. -/
theorem onlyCompletedExecutionsCount : Obligations.OnlyCompletedExecutionsCount := by
  intro s t h
  refine ⟨fun hdone => ?_, fun hnot => ?_, fun hquiet => ?_, fun hnot => ?_⟩
  · rcases step_counts_or_keeps h with ⟨-, hcycles⟩ | ⟨hnot, -⟩
    · exact hcycles
    · exact absurd hdone hnot
  · rcases step_counts_or_keeps h with ⟨hdone, -⟩ | ⟨-, hkept⟩
    · exact absurd hdone hnot
    · exact hkept
  · rcases step_records h with ⟨-, hhist⟩ | ⟨hnot, -⟩
    · exact hhist
    · exact absurd hquiet hnot
  · rcases step_records h with ⟨hquiet, -⟩ | ⟨-, hentry⟩
    · exact absurd hquiet hnot
    · exact hentry

/-! ### Runs -/

/-- `n` steps lead from `s` to `t`, each made in a state that is not Halted. -/
def StepsUnhalted (n : Nat) (s t : State) : Prop :=
  Host.Core.run core n s = .next t ∧
    ∀ k : Nat, k < n → ∃ u : State, Host.Core.run core k s = .next u ∧ u.phase ≠ .halted

theorem core_run_succ {M : Host.Core} {s t : M.State} (h : M.step s = .next t) (n : Nat) :
    M.run (n + 1) s = M.run n t := by
  rw [Host.Core.run, h]

theorem stepsUnhalted_zero (s : State) : StepsUnhalted 0 s s := ⟨rfl, fun _ hk => absurd hk (Nat.not_lt_zero _)⟩

theorem stepsUnhalted_succ {n : Nat} {s t u : State} (hp : s.phase ≠ .halted) (h : step s = .next t)
    (ht : StepsUnhalted n t u) : StepsUnhalted (n + 1) s u := by
  obtain ⟨hrun, hbefore⟩ := ht
  refine ⟨(core_run_succ (M := core) h n).trans hrun, fun k hk => ?_⟩
  cases k with
  | zero => exact ⟨s, rfl, hp⟩
  | succ j =>
    rw [core_run_succ (M := core) h]
    exact hbefore j (Nat.lt_of_succ_lt_succ hk)

/-- Everything a run with budget left can do: nothing in Halted, one step that halts, or a step and the rest of the run. -/
theorem run_succ_cases {k n : Nat} {s t : State} (h : run (k + 1) s = .next (n, t)) :
    (s.phase = .halted ∧ n = 0 ∧ t = s) ∨
    (s.phase ≠ .halted ∧ n = 1 ∧ t.phase = .halted ∧ step s = .next t) ∨
    (s.phase ≠ .halted ∧ ∃ j u, step s = .next u ∧ run k u = .next (j, t) ∧ n = j + 1) := by
  by_cases hp : s.phase = .halted
  · cases (run_halted hp (k + 1)).symm.trans h
    exact .inl ⟨hp, rfl, rfl⟩
  cases hstep : step s with
  | fault f => simp [run, State.halted, hp, hstep] at h
  | refused r => simp [run, State.halted, hp, hstep] at h
  | next u =>
    by_cases hu : u.phase = .halted
    · cases (run_succ_of_stop hp hstep hu k).symm.trans h
      exact .inr (.inl ⟨hp, rfl, hu, rfl⟩)
    cases hrun : run k u with
    | fault f => simp [run, State.halted, State.continues, hp, hstep, hu, hrun] at h
    | refused r => simp [run, State.halted, State.continues, hp, hstep, hu, hrun] at h
    | next p =>
      cases (run_succ_of_continue hp hstep hu hrun).symm.trans h
      exact .inr (.inr ⟨hp, _, u, rfl, hrun, rfl⟩)

theorem run_spec {budget n : Nat} {s t : State} (h : run budget s = .next (n, t)) :
    n ≤ budget ∧ StepsUnhalted n s t ∧ (n < budget → t.phase = .halted) := by
  induction budget generalizing n s with
  | zero =>
    cases h
    exact ⟨Nat.le_refl 0, stepsUnhalted_zero _, fun hlt => absurd hlt (Nat.not_lt_zero _)⟩
  | succ k ih =>
    rcases run_succ_cases h with ⟨hp, rfl, rfl⟩ | ⟨hp, rfl, ht, hstep⟩ | ⟨hp, j, u, hstep, hrun, rfl⟩
    · exact ⟨Nat.zero_le _, stepsUnhalted_zero t, fun _ => hp⟩
    · exact ⟨Nat.succ_pos k, stepsUnhalted_succ hp hstep (stepsUnhalted_zero t), fun _ => ht⟩
    · obtain ⟨hle, hsteps, hend⟩ := ih hrun
      exact ⟨Nat.succ_le_succ hle, stepsUnhalted_succ hp hstep hsteps, fun hlt => hend (Nat.lt_of_succ_lt_succ hlt)⟩

/-- Settles O47, by induction on the budget over what one unit of it does. -/
theorem runStepsUntilHaltedOrBudget : Obligations.RunStepsUntilHaltedOrBudget := by
  refine ⟨fun budget n s t h => ?_, fun budget s hp => run_halted hp budget⟩
  obtain ⟨hle, ⟨hrun, hbefore⟩, hend⟩ := run_spec h
  exact ⟨hle, hrun, hend, hbefore⟩

/-! ### The host's access to memory -/

theorem hostWrite_of_valid {s : State} {a v : Int} (ha : s.validAddress a) (h0 : 0 ≤ v) (hv : v ≤ 65535) :
    s.hostWrite a v = some (s.setMem (s.mem.set a.toNat (BitVec.ofNat 16 v.toNat))) := by
  obtain ⟨ha0, ha1⟩ := ha
  rw [State.hostWrite, if_pos ⟨ha0, ha1, h0, hv⟩, mask16_eq_ofNat, Int.emod_eq_of_lt h0 (by omega)]

theorem hostWrite_of_invalid {s : State} {a v : Int} (h : ¬(s.validAddress a ∧ 0 ≤ v ∧ v ≤ 65535)) :
    s.hostWrite a v = none :=
  if_neg fun ⟨ha0, ha1, h0, hv⟩ => h ⟨⟨ha0, ha1⟩, h0, hv⟩

theorem hostExpand_of_valid {s : State} {n : Nat} (h : s.mem.size < n ∧ n ≤ 65536) :
    s.hostExpand n = some (s.setMem (s.mem.expand Config.expandInit n)) := if_pos h

theorem hostExpand_of_invalid {s : State} {n : Nat} (h : ¬(s.mem.size < n ∧ n ≤ 65536)) : s.hostExpand n = none :=
  if_neg h

/-- Settles O49: the write is the port's at a valid address, and the expansion appends cells above the old ones. -/
theorem hostWritesAndExpandsMemory : Obligations.HostWritesAndExpandsMemory := by
  refine ⟨fun s a v hm ha h0 hv => ?write, fun _ _ _ => hostWrite_of_invalid, fun s n hm hlt hle => ?expand,
    fun _ _ => hostExpand_of_invalid⟩
  case write =>
    have hw := Memory.write_of_valid ha (BitVec.ofNat 16 v.toNat)
    exact ⟨_, hostWrite_of_valid ha h0 hv, rfl, Memory.write_keeps_wf hm hw, Memory.read_write_same hm hw,
      sameMemoryExcept_of_write hw⟩
  case expand =>
    refine ⟨_, hostExpand_of_valid ⟨hlt, hle⟩, rfl, Memory.expand_keeps_wf hm (Nat.le_of_lt hlt) hle _, rfl,
      fun a ha => ?_, fun a hl hn => ?_⟩
    · rw [setMem_mem, Memory.read_natCast (m := s.mem.expand _ n) (Nat.lt_trans ha hlt), Memory.read_natCast ha,
        Memory.get_expand_old hm ha]
    · rw [setMem_mem, Memory.read_natCast (m := s.mem.expand _ n) hn, Memory.get_expand_new hm hl hn]

end Sys2Proof.Machine
end

section
/-! PROOFS. The assembler (spec/30_encoding.md R80 to R89): pass 1 fails at the first malformed label, and on any other text
it is a fold over the source lines, whose instructions and labels are read off it. -/

namespace Sys2Proof.Machine

/-! ### Pass 1 as a fold -/

/-- What pass 1 has made after a line that is not malformed. -/
def Pass1.afterLine (p : Pass1) (l : Line) : Pass1 := (Pass1.mk p.out (labelsAfter p l)).addInstr (instrText l)

/-- What pass 1 has made after some lines, none of them malformed. -/
def Pass1.afterLines (p : Pass1) (ls : List Line) : Pass1 := ls.foldl Pass1.afterLine p

@[simp] theorem afterLines_nil (p : Pass1) : p.afterLines [] = p := rfl

@[simp] theorem afterLines_cons (p : Pass1) (l : Line) (ls : List Line) :
    p.afterLines (l :: ls) = (p.afterLine l).afterLines ls := rfl

@[simp] theorem afterLine_labels (p : Pass1) (l : Line) : (p.afterLine l).labels = labelsAfter p l :=
  addInstr_labels _ _

theorem afterLine_out (p : Pass1) (l : Line) :
    (p.afterLine l).out = p.out ++ (if instrText l = [] then [] else [instrText l]).map tokenized := by
  by_cases h : instrText l = [] <;> simp [Pass1.afterLine, h]

theorem pass1_cons_of_malformed {l : Line} (h : MalformedLabel l) (p : Pass1) (number : Nat) (ls : List Line) :
    pass1 p number (l :: ls) = .error (.syntaxError number) := by
  rcases p.line_cases number l with ⟨-, hl⟩ | ⟨hn, -⟩
  · rw [pass1, hl]
    rfl
  · exact absurd h hn

theorem pass1_cons_of_wellFormed {l : Line} (h : ¬ MalformedLabel l) (p : Pass1) (number : Nat) (ls : List Line) :
    pass1 p number (l :: ls) = pass1 (p.afterLine l) (number + 1) ls := by
  rcases p.line_cases number l with ⟨hm, -⟩ | ⟨-, hl⟩
  · exact absurd hm h
  · rw [pass1, hl]
    rfl

theorem pass1_ok_iff {p q : Pass1} {number : Nat} {ls : List Line} :
    pass1 p number ls = .ok q ↔ (∀ l ∈ ls, ¬ MalformedLabel l) ∧ p.afterLines ls = q := by
  induction ls generalizing p number with
  | nil => simp [pass1]
  | cons l ls ih =>
    by_cases hm : MalformedLabel l
    · simp [pass1_cons_of_malformed hm, hm]
    · simp [pass1_cons_of_wellFormed hm, ih, hm]

theorem assemble_ok_iff {text : Line} {lines : List Line} {labels : LabelTable} :
    assemble text = .ok (lines, labels) ↔
      (∀ l ∈ sourceLines text, ¬ MalformedLabel l) ∧ (Pass1.afterLines ⟨[], []⟩ (sourceLines text)).labels = labels ∧
        (Pass1.afterLines ⟨[], []⟩ (sourceLines text)).out.map (pass2 labels) = lines := by
  constructor
  · intro h
    cases hp : pass1 ⟨[], []⟩ 1 (sourceLines text) with
    | error e =>
      rw [assemble, hp] at h
      cases h
    | ok q =>
      rw [assemble, hp] at h
      obtain ⟨hwell, rfl⟩ := pass1_ok_iff.1 hp
      cases h
      exact ⟨hwell, rfl, rfl⟩
  · rintro ⟨hwell, rfl, rfl⟩
    rw [assemble, pass1_ok_iff.2 ⟨hwell, rfl⟩]
    rfl

/-! ### The first malformed line -/

/-- The line at index `k` is the first malformed one. -/
def FirstMalformed (ls : List Line) (k : Nat) : Prop :=
  ∃ l : Line, ls[k]? = some l ∧ MalformedLabel l ∧
    ∀ (j : Nat) (l' : Line), j < k → ls[j]? = some l' → ¬ MalformedLabel l'

theorem not_firstMalformed_nil (k : Nat) : ¬ FirstMalformed [] k := by
  rintro ⟨l, hl, -⟩
  simp at hl

theorem firstMalformed_cons_of_malformed {l : Line} (h : MalformedLabel l) (ls : List Line) (k : Nat) :
    FirstMalformed (l :: ls) k ↔ k = 0 := by
  constructor
  · rintro ⟨-, -, -, hbefore⟩
    by_contra hk
    exact hbefore 0 l (Nat.pos_of_ne_zero hk) rfl h
  · rintro rfl
    exact ⟨l, rfl, h, fun j _ hj => absurd hj (Nat.not_lt_zero j)⟩

theorem firstMalformed_cons_of_wellFormed {l : Line} (h : ¬ MalformedLabel l) (ls : List Line) (k : Nat) :
    FirstMalformed (l :: ls) k ↔ ∃ j, k = j + 1 ∧ FirstMalformed ls j := by
  constructor
  · rintro ⟨m, hm, hmal, hbefore⟩
    cases k with
    | zero =>
      cases hm
      exact absurd hmal h
    | succ j => exact ⟨j, rfl, m, hm, hmal, fun i l' hi => hbefore (i + 1) l' (Nat.succ_lt_succ hi)⟩
  · rintro ⟨j, rfl, m, hm, hmal, hbefore⟩
    refine ⟨m, hm, hmal, fun i l' hi hl' => ?_⟩
    cases i with
    | zero =>
      cases hl'
      exact h
    | succ i => exact hbefore i l' (Nat.lt_of_succ_lt_succ hi) hl'

theorem pass1_error_iff {p : Pass1} {number n : Nat} {ls : List Line} :
    pass1 p number ls = .error (.syntaxError n) ↔ ∃ k, n = number + k ∧ FirstMalformed ls k := by
  induction ls generalizing p number with
  | nil => simp [pass1, not_firstMalformed_nil]
  | cons l ls ih =>
    by_cases hm : MalformedLabel l
    · simp [pass1_cons_of_malformed hm, firstMalformed_cons_of_malformed hm, eq_comm]
    · rw [pass1_cons_of_wellFormed hm, ih]
      simp only [firstMalformed_cons_of_wellFormed hm]
      constructor
      · rintro ⟨k, rfl, hk⟩
        exact ⟨k + 1, by omega, k, rfl, hk⟩
      · rintro ⟨-, rfl, k, rfl, hk⟩
        exact ⟨k, by omega, hk⟩

theorem assemble_error_iff {text : Line} {e : AsmError} :
    assemble text = .error e ↔ pass1 ⟨[], []⟩ 1 (sourceLines text) = .error e := by
  rw [assemble]
  cases pass1 ⟨[], []⟩ 1 (sourceLines text) <;> simp [Except.map]

/-- Settles O56: pass 1 numbers the lines from 1, and pass 2 cannot fail. -/
theorem assemblyFailsExactlyAtTheFirstMalformedLabel : Obligations.AssemblyFailsExactlyAtTheFirstMalformedLabel := by
  intro text n
  rw [assemble_error_iff, pass1_error_iff]
  constructor
  · rintro ⟨k, hn, l, hl⟩
    exact ⟨k, l, hn.trans (Nat.add_comm 1 k), hl⟩
  · rintro ⟨k, l, hn, hl⟩
    exact ⟨k, hn.trans (Nat.add_comm k 1), l, hl⟩

/-! ### The instructions -/

theorem afterLines_out (p : Pass1) (ls : List Line) :
    (p.afterLines ls).out = p.out ++ (instrTexts ls).map tokenized := by
  induction ls generalizing p with
  | nil => simp [instrTexts]
  | cons l ls ih => rw [afterLines_cons, ih, afterLine_out, instrTexts_cons, List.map_append, List.append_assoc]

/-- The compiled lines are the instructions' texts, tokenized and under the label table. -/
theorem afterLines_compiled (labels : LabelTable) (ls : List Line) :
    (Pass1.afterLines ⟨[], []⟩ ls).out.map (pass2 labels) = (instrTexts ls).map (compiledText labels) := by
  rw [afterLines_out, List.nil_append, List.map_map]
  rfl

/-! ### The labels -/

theorem findLabel_labelsAfter_other {p : Pass1} {l name : Line} (h : labelOf l ≠ some name) :
    findLabel (labelsAfter p l) name = findLabel p.labels name := by
  cases hl : labelOf l with
  | none => simp [labelsAfter, hl]
  | some other =>
    simp only [labelsAfter, hl]
    exact findLabel_setLabel_other _ _ fun he => h (he ▸ hl)

theorem findLabel_labelsAfter_same {p : Pass1} {l name : Line} (h : labelOf l = some name) :
    findLabel (labelsAfter p l) name = some p.out.length := by
  simp only [labelsAfter, h]
  exact findLabel_setLabel_same _ _ _

theorem findLabel_afterLines_of_absent {p : Pass1} {ls : List Line} {name : Line}
    (h : ∀ l ∈ ls, labelOf l ≠ some name) : findLabel (p.afterLines ls).labels name = findLabel p.labels name := by
  induction ls generalizing p with
  | nil => rfl
  | cons l ls ih =>
    obtain ⟨hl, hls⟩ := List.forall_mem_cons.1 h
    rw [afterLines_cons, ih hls, afterLine_labels, findLabel_labelsAfter_other hl]

/-- The last line that defines a label decides its index: the number of instructions before that line. -/
theorem findLabel_afterLines_of_last {p : Pass1} {ls : List Line} {name l : Line} {k : Nat} (hk : ls[k]? = some l)
    (hl : labelOf l = some name)
    (hlast : ∀ (j : Nat) (l' : Line), k < j → ls[j]? = some l' → labelOf l' ≠ some name) :
    findLabel (p.afterLines ls).labels name = some (p.out.length + (instrTexts (ls.take k)).length) := by
  induction ls generalizing p k with
  | nil => simp at hk
  | cons m ls ih =>
    rw [afterLines_cons]
    cases k with
    | zero =>
      cases hk
      have habsent : ∀ l' ∈ ls, labelOf l' ≠ some name := fun l' hl' => by
        obtain ⟨j, hj⟩ := List.getElem?_of_mem hl'
        exact hlast (j + 1) l' (Nat.succ_pos j) hj
      rw [findLabel_afterLines_of_absent habsent, afterLine_labels, findLabel_labelsAfter_same hl]
      rfl
    | succ k =>
      rw [ih hk fun j l' hj => hlast (j + 1) l' (Nat.succ_lt_succ hj), afterLine_out, List.take_succ_cons,
        instrTexts_cons]
      simp only [List.length_append, List.length_map, Nat.add_assoc]

/-- Settles O57: the lines and the labels of the fold. -/
theorem assemblyTokenizesAndResolvesLabels : Obligations.AssemblyTokenizesAndResolvesLabels := by
  intro text lines labels h
  obtain ⟨-, rfl, rfl⟩ := assemble_ok_iff.1 h
  refine ⟨afterLines_compiled _ _, fun name l k hk hl hlast => ?_, fun name habsent => ?_⟩
  · rw [findLabel_afterLines_of_last hk hl hlast, List.length_nil, Nat.zero_add]
  · rw [findLabel_afterLines_of_absent habsent, findLabel]

/-! ### Texts without labels -/

theorem mem_of_mem_trim {c : Char} {s : Line} (h : c ∈ trim s) : c ∈ s := by
  rw [trim, List.mem_reverse] at h
  have h' := (List.dropWhile_sublist isSpace).subset h
  rw [List.mem_reverse] at h'
  exact (List.dropWhile_sublist isSpace).subset h'

theorem splitLabel_of_no_colon {l : Line} (h : ':' ∉ dropComment l) : splitLabel (trim (dropComment l)) = none :=
  splitLabel_eq_none.2 fun hc => h (mem_of_mem_trim hc)

theorem labelOf_of_no_colon {l : Line} (h : ':' ∉ dropComment l) : labelOf l = none := by
  rw [labelOf, splitLabel_of_no_colon h, Option.map_none]

theorem instrText_of_no_colon {l : Line} (h : ':' ∉ dropComment l) : instrText l = trim (dropComment l) := by
  rw [instrText, splitLabel_of_no_colon h]

theorem not_malformed_of_no_label {l : Line} (h : labelOf l = none) : ¬ MalformedLabel l := by
  rw [malformedLabel_iff, h]
  rintro ⟨name, hname, -⟩
  cases hname

theorem afterLines_labels_of_no_label {p : Pass1} {ls : List Line} (h : ∀ l ∈ ls, labelOf l = none) :
    (p.afterLines ls).labels = p.labels := by
  induction ls generalizing p with
  | nil => rfl
  | cons l ls ih =>
    obtain ⟨hl, hls⟩ := List.forall_mem_cons.1 h
    rw [afterLines_cons, ih hls, afterLine_labels, labelsAfter, hl]

/-- Without labels pass 2 substitutes nothing. -/
theorem compiledText_nil (s : Line) :
    compiledText [] s = compiledLine (upper (splitWord s).1) (splitOperands (splitWord s).2) := by
  have hid : substitute [] = id := rfl
  rw [compiledText, hid, List.map_id]

/-- Settles O55: no line defines a label, and each is its own instruction's text. -/
theorem textWithoutLabelsAssembles : Obligations.TextWithoutLabelsAssembles := by
  intro text h
  have hlabels : ∀ l ∈ sourceLines text, labelOf l = none := fun l hl => labelOf_of_no_colon (h l hl)
  have htexts : (sourceLines text).map instrText = (sourceLines text).map fun l => trim (dropComment l) :=
    List.map_congr_left fun l hl => instrText_of_no_colon (h l hl)
  refine assemble_ok_iff.2
    ⟨fun l hl => not_malformed_of_no_label (hlabels l hl), afterLines_labels_of_no_label hlabels, ?_⟩
  rw [afterLines_compiled, instrTexts, htexts]
  exact List.map_congr_left fun s _ => compiledText_nil s

end Sys2Proof.Machine
end
